-- ==== Sys2Proof/Word.lean ====
section
/-! DEFINITION. The word types of the model (00_scope.md R5, R14; 10_state.md R20, R22). -/

namespace Sys2Proof

/-- A general register's contents, an address, the program counter: XLEN = 64 bits (00_scope.md R5). -/
abbrev Word := BitVec 64

/-- One instruction word; its most significant bit is instruction bit 0 (00_scope.md R8, 30_encoding.md R50). -/
abbrev InstrWord := BitVec 32

/-- The Condition Register; its most significant bit is CR bit 32 (00_scope.md R7, 10_state.md R22). -/
abbrev CrWord := BitVec 32

/-- A CR field, a field mask or a field map, the field's first bit most significant (00_scope.md R14). -/
abbrev Nibble := BitVec 4

/-- One byte of the instruction space (20_memory.md R41). -/
abbrev Byte := BitVec 8

/-- The number of a general register, a 5-bit RT or RA (10_state.md R20). -/
abbrev GprNum := Fin 32

/-- The number of a CR field, a 3-bit BF or BFA (10_state.md R22). -/
abbrev FieldNum := Fin 8

/-- The number of one CR bit, a 5-bit BT that means CR bit 32+BT (10_state.md R22). -/
abbrev CrBitNum := Fin 32

end Sys2Proof
end

