-- ==== Sys2Proof/Config.lean ====
section
/-! DEFINITION. What the spec leaves to a parameter: the opcode assignment ENC (30_encoding.md R58), the base
instruction set BASE_ISA (00_scope.md R5), the byte order of instruction fetch (20_memory.md R41). The values State.reset
takes for them stand in Decode.lean. No value is free here: the one free value of the spec is an input of the loop
functions (SvContext.draw). -/

namespace Sys2Proof

/-- The six mnemonics `<m>` that ENC has a record for; a recording form shares the record of its plain form
(30_encoding.md R58). -/
inductive Op where
  | crrweird | mfcrrweird | mtcrrweird | mtcrweird | mcrfm | crweirder
  deriving DecidableEq, Repr

/-- The six in the page's order. -/
def Op.all : List Op := [.crrweird, .mfcrrweird, .mtcrrweird, .mtcrweird, .mcrfm, .crweirder]

/-- PO, XOhi and XOlo of one instruction (30_encoding.md R58); R57 keeps the two parts of XO apart. -/
structure Opcode where
  po : BitVec 6
  xoHi : BitVec 3
  xoLo : BitVec 5
  deriving DecidableEq, Repr

/-- The record of a CW-Form instruction: the opcode and the value compared with instruction bit 31
(30_encoding.md R53, R58). -/
structure CWOpcode where
  opcode : Opcode
  b31 : BitVec 1
  deriving DecidableEq, Repr

/-- ENC: one record per instruction (30_encoding.md R58). -/
structure Enc where
  crrweird : Opcode
  mfcrrweird : Opcode
  mtcrrweird : CWOpcode
  mtcrweird : CWOpcode
  mcrfm : CWOpcode
  crweirder : CWOpcode
  deriving DecidableEq, Repr

/-- ENC.m.PO, ENC.m.XOhi, ENC.m.XOlo. -/
def Enc.opcode (e : Enc) : Op → Opcode
  | .crrweird => e.crrweird
  | .mfcrrweird => e.mfcrrweird
  | .mtcrrweird => e.mtcrrweird.opcode
  | .mtcrweird => e.mtcrweird.opcode
  | .mcrfm => e.mcrfm.opcode
  | .crweirder => e.crweirder.opcode

/-- ENC.m.B31: none for the two CW2-Form instructions, whose bit 31 is Rc (30_encoding.md R58). -/
def Enc.b31 (e : Enc) : Op → Option (BitVec 1)
  | .crrweird => none
  | .mfcrrweird => none
  | .mtcrrweird => some e.mtcrrweird.b31
  | .mtcrweird => some e.mtcrweird.b31
  | .mcrfm => some e.mcrfm.b31
  | .crweirder => some e.crweirder.b31

/-- A row of an instruction set: the words whose bits under `mask` are `bits`. -/
structure BaseRow where
  mask : InstrWord
  bits : InstrWord
  deriving DecidableEq, Repr

/-- BASE_ISA, the instruction set the six instructions are added to, as the words it gives a meaning (00_scope.md R1, R5;
notes/assumptions/24.md). Any set of words is some list of rows. -/
structure BaseIsa where
  rows : List BaseRow
  deriving DecidableEq, Repr

/-- Whether a word is an instruction of BASE_ISA (30_encoding.md R58). -/
def BaseIsa.has (b : BaseIsa) (w : InstrWord) : Bool := b.rows.any fun r => w &&& r.mask == r.bits

/-- IFETCH_ENDIAN (20_memory.md R41). -/
inductive Endian where
  | big | little
  deriving DecidableEq, Repr

end Sys2Proof
end

