-- ==== Sys2Proof/Syntax.lean ====
section
/-! DEFINITION. The instructions: one constructor per row of spec/opcode_table.json, operands in the order
of the syntax lines (30_encoding.md R64). An operand's type is its range (R55). -/

namespace Sys2Proof

/-- The eight instruction rows and the three pseudo-op rows of the opcode table. A constructor whose name ends
in `Rc` is the recording form, written with a dot. The last three are assembler shorthand for `mtcrweird`
(30_encoding.md R66): they have a word and a meaning, and decoding never answers one of them. -/
inductive Instr where
  /-- `crrweird RT,BFA,M,fmsk,fmap` (40_cr_to_gpr.md R80). -/
  | crrweird (rt : GprNum) (bfa : FieldNum) (m : Bool) (fmsk fmap : Nibble)
  /-- `crrweird. RT,BFA,M,fmsk,fmap` (40_cr_to_gpr.md R81). -/
  | crrweirdRc (rt : GprNum) (bfa : FieldNum) (m : Bool) (fmsk fmap : Nibble)
  /-- `mfcrrweird RT,BFA,fmsk,fmap` (40_cr_to_gpr.md R83). -/
  | mfcrrweird (rt : GprNum) (bfa : FieldNum) (fmsk fmap : Nibble)
  /-- `mfcrrweird. RT,BFA,fmsk,fmap` (40_cr_to_gpr.md R84). -/
  | mfcrrweirdRc (rt : GprNum) (bfa : FieldNum) (fmsk fmap : Nibble)
  /-- `mtcrrweird BF,RA,M,fmsk,fmap` (41_gpr_to_cr.md R91). -/
  | mtcrrweird (bf : FieldNum) (ra : GprNum) (m : Bool) (fmsk fmap : Nibble)
  /-- `mtcrweird BF,RA,M,fmsk,fmap` (41_gpr_to_cr.md R92). -/
  | mtcrweird (bf : FieldNum) (ra : GprNum) (m : Bool) (fmsk fmap : Nibble)
  /-- `mcrfm BF,BFA,M,fmsk,fmap` (42_cr_to_cr.md R100). -/
  | mcrfm (bf bfa : FieldNum) (m : Bool) (fmsk fmap : Nibble)
  /-- `crweirder BT,BFA,M,fmsk,fmap`, M third by 90_conflicts.md C1 (42_cr_to_cr.md R103). -/
  | crweirder (bt : CrBitNum) (bfa : FieldNum) (m : Bool) (fmsk fmap : Nibble)
  /-- `mtcri BF,fmap`, which is `mtcrweird BF,r0,0,0b1111,~fmap` (41_gpr_to_cr.md R96). -/
  | mtcri (bf : FieldNum) (fmap : Nibble)
  /-- `mtcrset BF,fmsk`, which is `mtcrweird BF,r0,1,fmsk,0b0000` (41_gpr_to_cr.md R97). -/
  | mtcrset (bf : FieldNum) (fmsk : Nibble)
  /-- `mtcrclr BF,fmsk`, which is `mtcrweird BF,r0,1,fmsk,0b1111` (41_gpr_to_cr.md R98). -/
  | mtcrclr (bf : FieldNum) (fmsk : Nibble)
  deriving DecidableEq, Repr

end Sys2Proof
end

