-- ==== Sys2Proof/WellFormed.lean ====
section
/-! DEFINITION. What is checked before an instruction or an opcode assignment is used: an assembly line's operand
count and ranges (30_encoding.md R55, R64, R65; 92_eei_decisions.md D29), and the first assumption on ENC (R58). -/

namespace Sys2Proof

/-- The first assumption on ENC: the six triples (PO, XOhi, XOlo) are pairwise different. The second, that no word
matching one of the six is an instruction of BASE_ISA, is `Enc.disjointFrom` (30_encoding.md R58). -/
abbrev Enc.Admissible (e : Enc) : Prop := (Op.all.map e.opcode).Nodup

/-- The mnemonics of the syntax lines (30_encoding.md R64) and of the pseudo-ops (R66). -/
inductive Mnemonic where
  | crrweird | crrweirdRc | mfcrrweird | mfcrrweirdRc | mtcrrweird | mtcrweird | mcrfm | crweirder
  | mtcri | mtcrset | mtcrclr
  deriving DecidableEq, Repr

/-- The operand positions of the syntax lines. -/
inductive OperandKind where
  | rt | ra | bf | bfa | bt | m | fmsk | fmap
  deriving DecidableEq, Repr

/-- How many values the operand's field holds (30_encoding.md R55). -/
def OperandKind.bound : OperandKind → Nat
  | .rt => 32 | .ra => 32 | .bt => 32
  | .bf => 8 | .bfa => 8
  | .m => 2
  | .fmsk => 16 | .fmap => 16

/-- The operands of a line, in order (30_encoding.md R64, R66). -/
def Mnemonic.operands : Mnemonic → List OperandKind
  | .crrweird => [.rt, .bfa, .m, .fmsk, .fmap]
  | .crrweirdRc => [.rt, .bfa, .m, .fmsk, .fmap]
  | .mfcrrweird => [.rt, .bfa, .fmsk, .fmap]
  | .mfcrrweirdRc => [.rt, .bfa, .fmsk, .fmap]
  | .mtcrrweird => [.bf, .ra, .m, .fmsk, .fmap]
  | .mtcrweird => [.bf, .ra, .m, .fmsk, .fmap]
  | .mcrfm => [.bf, .bfa, .m, .fmsk, .fmap]
  | .crweirder => [.bt, .bfa, .m, .fmsk, .fmap]
  | .mtcri => [.bf, .fmap]
  | .mtcrset => [.bf, .fmsk]
  | .mtcrclr => [.bf, .fmsk]

/-- A line of assembly with its operands as plain numbers. -/
structure AsmLine where
  mnemonic : Mnemonic
  operands : List Nat
  deriving DecidableEq, Repr

/-- Every operand present, none more, each inside its range: an operand outside its range is an assembly error
and M is never omitted (30_encoding.md R65, 92_eei_decisions.md D29). -/
def AsmLine.wellFormed (l : AsmLine) : Bool :=
  l.operands.length == l.mnemonic.operands.length &&
    (l.mnemonic.operands.zip l.operands).all fun p => decide (p.2 < p.1.bound)

/-- The instruction a well-formed line stands for; none is the assembly error of 30_encoding.md R65. -/
def AsmLine.assemble (l : AsmLine) : Option Instr :=
  if l.wellFormed then
    match l.mnemonic, l.operands with
    | .crrweird, [rt, bfa, m, fmsk, fmap] =>
      some (.crrweird (Fin.ofNat 32 rt) (Fin.ofNat 8 bfa) (m == 1) (BitVec.ofNat 4 fmsk) (BitVec.ofNat 4 fmap))
    | .crrweirdRc, [rt, bfa, m, fmsk, fmap] =>
      some (.crrweirdRc (Fin.ofNat 32 rt) (Fin.ofNat 8 bfa) (m == 1) (BitVec.ofNat 4 fmsk) (BitVec.ofNat 4 fmap))
    | .mfcrrweird, [rt, bfa, fmsk, fmap] =>
      some (.mfcrrweird (Fin.ofNat 32 rt) (Fin.ofNat 8 bfa) (BitVec.ofNat 4 fmsk) (BitVec.ofNat 4 fmap))
    | .mfcrrweirdRc, [rt, bfa, fmsk, fmap] =>
      some (.mfcrrweirdRc (Fin.ofNat 32 rt) (Fin.ofNat 8 bfa) (BitVec.ofNat 4 fmsk) (BitVec.ofNat 4 fmap))
    | .mtcrrweird, [bf, ra, m, fmsk, fmap] =>
      some (.mtcrrweird (Fin.ofNat 8 bf) (Fin.ofNat 32 ra) (m == 1) (BitVec.ofNat 4 fmsk) (BitVec.ofNat 4 fmap))
    | .mtcrweird, [bf, ra, m, fmsk, fmap] =>
      some (.mtcrweird (Fin.ofNat 8 bf) (Fin.ofNat 32 ra) (m == 1) (BitVec.ofNat 4 fmsk) (BitVec.ofNat 4 fmap))
    | .mcrfm, [bf, bfa, m, fmsk, fmap] =>
      some (.mcrfm (Fin.ofNat 8 bf) (Fin.ofNat 8 bfa) (m == 1) (BitVec.ofNat 4 fmsk) (BitVec.ofNat 4 fmap))
    | .crweirder, [bt, bfa, m, fmsk, fmap] =>
      some (.crweirder (Fin.ofNat 32 bt) (Fin.ofNat 8 bfa) (m == 1) (BitVec.ofNat 4 fmsk) (BitVec.ofNat 4 fmap))
    | .mtcri, [bf, fmap] => some (.mtcri (Fin.ofNat 8 bf) (BitVec.ofNat 4 fmap))
    | .mtcrset, [bf, fmsk] => some (.mtcrset (Fin.ofNat 8 bf) (BitVec.ofNat 4 fmsk))
    | .mtcrclr, [bf, fmsk] => some (.mtcrclr (Fin.ofNat 8 bf) (BitVec.ofNat 4 fmsk))
    | _, _ => none
  else none

/-- The line that writes an instruction out, operands as numbers (30_encoding.md R64, R66). -/
def Instr.line : Instr → AsmLine
  | .crrweird rt bfa m fmsk fmap => ⟨.crrweird, [rt.val, bfa.val, m.toNat, fmsk.toNat, fmap.toNat]⟩
  | .crrweirdRc rt bfa m fmsk fmap => ⟨.crrweirdRc, [rt.val, bfa.val, m.toNat, fmsk.toNat, fmap.toNat]⟩
  | .mfcrrweird rt bfa fmsk fmap => ⟨.mfcrrweird, [rt.val, bfa.val, fmsk.toNat, fmap.toNat]⟩
  | .mfcrrweirdRc rt bfa fmsk fmap => ⟨.mfcrrweirdRc, [rt.val, bfa.val, fmsk.toNat, fmap.toNat]⟩
  | .mtcrrweird bf ra m fmsk fmap => ⟨.mtcrrweird, [bf.val, ra.val, m.toNat, fmsk.toNat, fmap.toNat]⟩
  | .mtcrweird bf ra m fmsk fmap => ⟨.mtcrweird, [bf.val, ra.val, m.toNat, fmsk.toNat, fmap.toNat]⟩
  | .mcrfm bf bfa m fmsk fmap => ⟨.mcrfm, [bf.val, bfa.val, m.toNat, fmsk.toNat, fmap.toNat]⟩
  | .crweirder bt bfa m fmsk fmap => ⟨.crweirder, [bt.val, bfa.val, m.toNat, fmsk.toNat, fmap.toNat]⟩
  | .mtcri bf fmap => ⟨.mtcri, [bf.val, fmap.toNat]⟩
  | .mtcrset bf fmsk => ⟨.mtcrset, [bf.val, fmsk.toNat]⟩
  | .mtcrclr bf fmsk => ⟨.mtcrclr, [bf.val, fmsk.toNat]⟩

end Sys2Proof
end

