-- ==== Sys2Proof/Decode.lean ====
section
/-! DEFINITION. Decoding (30_encoding.md R52, R53, R54, R60, R61, R67) and encoding (R56), both over the nine fields
that the two formats share. Also the values State.reset takes for the open parameters. -/

namespace Sys2Proof

/-- The opcode triple of ENC_EX with the given XOhi (30_encoding.md R59). -/
def Config.opcodeEx (xoHi : BitVec 3) : Opcode := ⟨0b000101#6, xoHi, 0b00001#5⟩

/-- ENC_EX, the assignment the spec invents for its tests (30_encoding.md R59), and the value of
State.reset.enc. DESIGN CHOICE, unsafe: it says nothing of any hardware (notes/assumptions/1.md). -/
def Config.encEx : Enc where
  crrweird := Config.opcodeEx 0
  mfcrrweird := Config.opcodeEx 1
  mtcrrweird := ⟨Config.opcodeEx 2, 0⟩
  mtcrweird := ⟨Config.opcodeEx 3, 0⟩
  mcrfm := ⟨Config.opcodeEx 4, 0⟩
  crweirder := ⟨Config.opcodeEx 5, 0⟩

/-- The ENC of State.reset. DESIGN CHOICE, unsafe (notes/assumptions/1.md). -/
def Config.resetEnc : Enc := Config.encEx

/-- The BASE_ISA of State.reset: no instruction, since no source names one. DESIGN CHOICE, unsafe
(notes/assumptions/24.md). -/
def Config.resetBaseIsa : BaseIsa := ⟨[]⟩

/-- The IFETCH_ENDIAN of State.reset. DESIGN CHOICE, unsafe (notes/assumptions/3.md). -/
def Config.resetEndian : Endian := .big

/-- The ENTRY of State.reset. DESIGN CHOICE, unsafe (notes/assumptions/4.md). -/
def Config.resetEntry : Word := 0

/-- The nine fields of CW2-Form and CW-Form, most significant first: `f6` is RT, RA, BT or (in its upper three bits)
the BF of mcrfm; `f16` is BFA, or the BF of mtcrrweird and mtcrweird; `l` is Rc or B31 (30_encoding.md R52, R53,
R56). -/
structure WordFields where
  po : BitVec 6
  f6 : BitVec 5
  m : BitVec 1
  fmsk : Nibble
  f16 : BitVec 3
  xoHi : BitVec 3
  fmap : Nibble
  xoLo : BitVec 5
  l : BitVec 1
  deriving DecidableEq, Repr

/-- The fields of a word (30_encoding.md R56, the second direction). -/
def fieldsOfWord (w : InstrWord) : WordFields where
  po := w.extractLsb' 26 6
  f6 := w.extractLsb' 21 5
  m := w.extractLsb' 20 1
  fmsk := w.extractLsb' 16 4
  f16 := w.extractLsb' 13 3
  xoHi := w.extractLsb' 10 3
  fmap := w.extractLsb' 6 4
  xoLo := w.extractLsb' 1 5
  l := w.extractLsb' 0 1

/-- The word of the fields: they stand side by side, PO most significant (30_encoding.md R56). -/
def wordOfFields (f : WordFields) : InstrWord :=
  f.po ++ f.f6 ++ f.m ++ f.fmsk ++ f.f16 ++ f.xoHi ++ f.fmap ++ f.xoLo ++ f.l

/-- Whether the fields match instruction `op`: PO, XOhi and XOlo, and B31 for CW-Form (30_encoding.md R67). -/
def matchesOp (e : Enc) (f : WordFields) (op : Op) : Bool :=
  f.po == (e.opcode op).po && f.xoHi == (e.opcode op).xoHi && f.xoLo == (e.opcode op).xoLo &&
    (match e.b31 op with
     | none => true
     | some b => f.l == b)

/-- The bits compared at decode: the `mask` column of 30_encoding.md R59. -/
def Enc.opMask (e : Enc) (op : Op) : InstrWord :=
  wordOfFields
    { po := -1, f6 := 0, m := 0, fmsk := 0, f16 := 0, xoHi := -1, fmap := 0, xoLo := -1,
      l := if (e.b31 op).isSome then 1 else 0 }

/-- What the compared bits are: the `match` column of 30_encoding.md R59. -/
def Enc.opMatch (e : Enc) (op : Op) : InstrWord :=
  wordOfFields
    { po := (e.opcode op).po, f6 := 0, m := 0, fmsk := 0, f16 := 0, xoHi := (e.opcode op).xoHi, fmap := 0,
      xoLo := (e.opcode op).xoLo, l := (e.b31 op).getD 0 }

/-- Whether no word is both in the row and equal to `bits` under `mask`: the row holds no word at all, or the two
disagree on a bit that both compare. -/
def BaseRow.apart (r : BaseRow) (mask bits : InstrWord) : Bool :=
  r.bits &&& ~~~r.mask != 0 || r.mask &&& mask &&& (r.bits ^^^ bits) != 0

/-- The second assumption on ENC: no word that matches one of the six is an instruction of BASE_ISA
(30_encoding.md R58). -/
def Enc.disjointFrom (e : Enc) (b : BaseIsa) : Bool :=
  b.rows.all fun r => Op.all.all fun op => r.apart (e.opMask op) (e.opMatch op)

/-- The instructions the fields match; under an admissible ENC at most one (30_encoding.md R67). -/
def matchingOps (e : Enc) (f : WordFields) : List Op := Op.all.filter (matchesOp e f)

/-- The BF of mcrfm: instruction bits 6 to 8 (30_encoding.md R53 row 3). -/
def mcrfmTarget (f6 : BitVec 5) : BitVec 3 := f6.extractLsb' 2 3

/-- Instruction bits 9 to 10 (30_encoding.md R53 row 3). -/
def mcrfmBlank (f6 : BitVec 5) : BitVec 2 := f6.extractLsb' 0 2

/-- Whether a reserved bit of `op` is set: bit 11 of mfcrrweird, bits 9 to 10 of mcrfm (30_encoding.md R60). -/
def reservedSet (op : Op) (f : WordFields) : Bool :=
  match op with
  | .mfcrrweird => f.m != 0
  | .mcrfm => mcrfmBlank f.f6 != 0
  | .crrweird => false
  | .mtcrrweird => false
  | .mtcrweird => false
  | .crweirder => false

/-- The instruction `op` with the operands the fields give (30_encoding.md R54, R55). -/
def readOperands (op : Op) (f : WordFields) : Instr :=
  match op with
  | .crrweird =>
    if f.l == 1 then .crrweirdRc f.f6.toFin f.f16.toFin (f.m == 1) f.fmsk f.fmap
    else .crrweird f.f6.toFin f.f16.toFin (f.m == 1) f.fmsk f.fmap
  | .mfcrrweird =>
    if f.l == 1 then .mfcrrweirdRc f.f6.toFin f.f16.toFin f.fmsk f.fmap
    else .mfcrrweird f.f6.toFin f.f16.toFin f.fmsk f.fmap
  | .mtcrrweird => .mtcrrweird f.f16.toFin f.f6.toFin (f.m == 1) f.fmsk f.fmap
  | .mtcrweird => .mtcrweird f.f16.toFin f.f6.toFin (f.m == 1) f.fmsk f.fmap
  | .mcrfm => .mcrfm (mcrfmTarget f.f6).toFin f.f16.toFin (f.m == 1) f.fmsk f.fmap
  | .crweirder => .crweirder f.f6.toFin f.f16.toFin (f.m == 1) f.fmsk f.fmap

/-- What decoding answers (30_encoding.md R67). -/
inductive Decoded where
  /-- An instruction with its operands. -/
  | instr (i : Instr)
  /-- The word matches `op` and a reserved bit of it is set: no meaning (30_encoding.md R60). -/
  | reserved (op : Op)
  /-- The word matches none of the six (30_encoding.md R61). -/
  | illegal
  /-- The word matches two instructions: only under an ENC that breaks R58 (notes/assumptions/12.md). -/
  | ambiguous
  deriving DecidableEq, Repr

/-- Decoding of one word, total (30_encoding.md R67). -/
def decode (e : Enc) (w : InstrWord) : Decoded :=
  match matchingOps e (fieldsOfWord w) with
  | [] => .illegal
  | [op] => if reservedSet op (fieldsOfWord w) then .reserved op else .instr (readOperands op (fieldsOfWord w))
  | _ :: _ :: _ => .ambiguous

/-- The four bytes of a word in the order of their addresses (20_memory.md R41). -/
def bytesOfWord (en : Endian) (w : InstrWord) : List Byte :=
  match en with
  | .big => [w.extractLsb' 24 8, w.extractLsb' 16 8, w.extractLsb' 8 8, w.extractLsb' 0 8]
  | .little => [w.extractLsb' 0 8, w.extractLsb' 8 8, w.extractLsb' 16 8, w.extractLsb' 24 8]

/-- The word that the bytes at pc, pc+1, pc+2, pc+3 make (20_memory.md R41). -/
def wordOfBytes (en : Endian) (b0 b1 b2 b3 : Byte) : InstrWord :=
  match en with
  | .big => b0 ++ b1 ++ b2 ++ b3
  | .little => b3 ++ b2 ++ b1 ++ b0

/-- Decoding of bytes in address order: the first word's meaning and the bytes after it; none where fewer than the
four bytes of one word are left (30_encoding.md R50). -/
def decodeBytes (e : Enc) (en : Endian) : List Byte → Option (Decoded × List Byte)
  | b0 :: b1 :: b2 :: b3 :: rest => some (decode e (wordOfBytes en b0 b1 b2 b3), rest)
  | _ => none

/-- The instruction that an instruction's word stands for: a pseudo-op's expansion, any other itself
(30_encoding.md R66, 41_gpr_to_cr.md R96, R97, R98). -/
def coreOf : Instr → Instr
  | .mtcri bf fmap => .mtcrweird bf 0 false 0b1111 (~~~fmap)
  | .mtcrset bf fmsk => .mtcrweird bf 0 true fmsk 0b0000
  | .mtcrclr bf fmsk => .mtcrweird bf 0 true fmsk 0b1111
  | .crrweird rt bfa m fmsk fmap => .crrweird rt bfa m fmsk fmap
  | .crrweirdRc rt bfa m fmsk fmap => .crrweirdRc rt bfa m fmsk fmap
  | .mfcrrweird rt bfa fmsk fmap => .mfcrrweird rt bfa fmsk fmap
  | .mfcrrweirdRc rt bfa fmsk fmap => .mfcrrweirdRc rt bfa fmsk fmap
  | .mtcrrweird bf ra m fmsk fmap => .mtcrrweird bf ra m fmsk fmap
  | .mtcrweird bf ra m fmsk fmap => .mtcrweird bf ra m fmsk fmap
  | .mcrfm bf bfa m fmsk fmap => .mcrfm bf bfa m fmsk fmap
  | .crweirder bt bfa m fmsk fmap => .crweirder bt bfa m fmsk fmap

/-- The record of ENC an instruction's word uses (30_encoding.md R58, R66). -/
def opOf : Instr → Op
  | .crrweird _ _ _ _ _ => .crrweird
  | .crrweirdRc _ _ _ _ _ => .crrweird
  | .mfcrrweird _ _ _ _ => .mfcrrweird
  | .mfcrrweirdRc _ _ _ _ => .mfcrrweird
  | .mtcrrweird _ _ _ _ _ => .mtcrrweird
  | .mtcrweird _ _ _ _ _ => .mtcrweird
  | .mcrfm _ _ _ _ _ => .mcrfm
  | .crweirder _ _ _ _ _ => .crweirder
  | .mtcri _ _ => .mtcrweird
  | .mtcrset _ _ => .mtcrweird
  | .mtcrclr _ _ => .mtcrweird

/-- The fields with the given opcode around the given operands. -/
def fieldsWith (o : Opcode) (f6 : BitVec 5) (m : Bool) (fmsk : Nibble) (f16 : BitVec 3) (fmap : Nibble)
    (l : BitVec 1) : WordFields :=
  { po := o.po, f6 := f6, m := BitVec.ofBool m, fmsk := fmsk, f16 := f16, xoHi := o.xoHi, fmap := fmap,
    xoLo := o.xoLo, l := l }

/-- A register number or CR bit number as a 5-bit field (30_encoding.md R55). -/
def field5 (n : Fin 32) : BitVec 5 := BitVec.ofFin n

/-- A CR field number as a 3-bit field (30_encoding.md R55). -/
def field3 (n : Fin 8) : BitVec 3 := BitVec.ofFin n

/-- The fields of an instruction's word (30_encoding.md R54, R56): M is 0 for mfcrrweird, bits 9 to 10 are 0 for
mcrfm, a pseudo-op has the fields of its expansion. -/
def fieldsOfInstr (e : Enc) : Instr → WordFields
  | .crrweird rt bfa m fmsk fmap => fieldsWith e.crrweird (field5 rt) m fmsk (field3 bfa) fmap 0
  | .crrweirdRc rt bfa m fmsk fmap => fieldsWith e.crrweird (field5 rt) m fmsk (field3 bfa) fmap 1
  | .mfcrrweird rt bfa fmsk fmap => fieldsWith e.mfcrrweird (field5 rt) false fmsk (field3 bfa) fmap 0
  | .mfcrrweirdRc rt bfa fmsk fmap => fieldsWith e.mfcrrweird (field5 rt) false fmsk (field3 bfa) fmap 1
  | .mtcrrweird bf ra m fmsk fmap =>
    fieldsWith e.mtcrrweird.opcode (field5 ra) m fmsk (field3 bf) fmap e.mtcrrweird.b31
  | .mtcrweird bf ra m fmsk fmap =>
    fieldsWith e.mtcrweird.opcode (field5 ra) m fmsk (field3 bf) fmap e.mtcrweird.b31
  | .mcrfm bf bfa m fmsk fmap =>
    fieldsWith e.mcrfm.opcode (field3 bf ++ 0#2) m fmsk (field3 bfa) fmap e.mcrfm.b31
  | .crweirder bt bfa m fmsk fmap =>
    fieldsWith e.crweirder.opcode (field5 bt) m fmsk (field3 bfa) fmap e.crweirder.b31
  | .mtcri bf fmap =>
    fieldsWith e.mtcrweird.opcode (field5 0) false 0b1111 (field3 bf) (~~~fmap) e.mtcrweird.b31
  | .mtcrset bf fmsk =>
    fieldsWith e.mtcrweird.opcode (field5 0) true fmsk (field3 bf) 0b0000 e.mtcrweird.b31
  | .mtcrclr bf fmsk =>
    fieldsWith e.mtcrweird.opcode (field5 0) true fmsk (field3 bf) 0b1111 e.mtcrweird.b31

/-- The word of an instruction under ENC (30_encoding.md R56). -/
def encode (e : Enc) (i : Instr) : InstrWord := wordOfFields (fieldsOfInstr e i)

/-- What the decoder reads, under State.reset's ENC and byte order, from a word whose low `nbits` bits are `w` and
whose other bits are 0. -/
def decodeTableWord (nbits w : Nat) : Option Instr :=
  match decodeBytes Config.resetEnc Config.resetEndian
      (bytesOfWord Config.resetEndian (BitVec.ofNat 32 (w % 2 ^ nbits))) with
  | some (.instr i, _) => some i
  | some (.reserved _, _) => none
  | some (.illegal, _) => none
  | some (.ambiguous, _) => none
  | none => none

end Sys2Proof
end

