-- ==== Sys2Proof/Machine/State.lean ====
section
/-! DEFINITION. The state, the reasons a step can stop, and the state after reset (10_state.md). -/

namespace Sys2Proof.Machine

/-- Where the machine stops. -/
inductive Fault where
  /-- IllegalInstruction(w): the word matches none of the six instructions. Raised by `raiseIllegal` at decode
  (60_exceptions.md R130, 30_encoding.md R61). Safe: hardware may go on, the model proves nothing past it. -/
  | illegalInstruction (w : InstrWord)
  /-- The program holds no word at `pc`: the agent has no step. Raised by `step` (20_memory.md R41). Safe. -/
  | stuck (pc : Word)
  /-- `pc` is 4 past the highest address at which the program holds a word: the normal end of a run. Raised by `step`
  (70_reset_and_hazards.md R153). Safe: hardware fetches whatever follows. -/
  | endOfProgram (pc : Word)
  deriving DecidableEq, Repr

/-- Why the model gives no meaning. -/
inductive Refusal where
  /-- An arm of `exec` that has no meaning yet. Safe. No arm uses it. -/
  | notModelled (mnemonic : String)
  /-- The word matches `op` and a reserved bit of it is set. Raised by `step` (30_encoding.md R60). Safe. -/
  | reservedBits (op : Op) (w : InstrWord)
  /-- The word matches two instructions, under an ENC that breaks 30_encoding.md R58. Raised by `step`. Safe. -/
  | ambiguousWord (w : InstrWord)
  /-- The step at pc = 2^64 - 4, which would wrap. Raised by `complete`, so by every meaning (10_state.md R26).
  Safe. -/
  | pcWrap
  /-- `pc` is no multiple of 4. Raised by `step` (20_memory.md R43). Safe. -/
  | misalignedPc (pc : Word)
  /-- The launch's ENTRY is no multiple of 4. Raised by `launch` (20_memory.md R43). Safe. -/
  | launchMisalignedEntry
  /-- The launch's program gives a word at an address that is no multiple of 4, or two words at one address: it is no
  map of 20_memory.md R41. Raised by `launch`. Safe. -/
  | launchNoProgram
  /-- The launch's program holds no word at ENTRY. Raised by `launch` (70_reset_and_hazards.md R151). Safe. -/
  | launchNoWordAtEntry
  /-- The launch's ENC has two equal triples, or matches a word of its BASE_ISA. Raised by `launch`
  (30_encoding.md R58). Safe. -/
  | launchInadmissibleEnc
  /-- RT.elwidth is not 0b00. Raised by the loop functions (45_vectorized.md R114 (c), R116). Safe. -/
  | svDestElwidth
  /-- Scalar RT, mapreduce, VL above 64 or 16: UNDEFINED. Raised by the loop functions (45_vectorized.md R118).
  Safe. -/
  | svScalarTooLong
  /-- A CR field or register number is outside the arrays. Raised by the loop functions
  (notes/assumptions/20.md). Safe. -/
  | svIndexOutOfRange
  /-- The page gives no loop for this instruction. Raised by `svExec` (45_vectorized.md R120). Safe. -/
  | svNoLoop (op : Op)
  deriving DecidableEq, Repr

/-- The state record of 10_state.md R30 (`x`, `cr`, `xerSo`, `pc`), and the launch parameters that R30 calls parameters
of the step (`mem`, `enc`), with the other open parameters of 00_scope.md R5 that a run has (`baseIsa`,
`ifetchEndian`); no step changes them. -/
structure State where
  /-- x[0] to x[31] (10_state.md R20). -/
  x : Vector Word 32
  /-- The Condition Register (10_state.md R22). -/
  cr : CrWord
  /-- The summary-overflow bit (10_state.md R24). -/
  xerSo : Bool
  /-- The address of the instruction being executed (10_state.md R26). -/
  pc : Word
  /-- The program, as bytes: addresses strictly rising, an unlisted address holds no byte (20_memory.md R41). -/
  mem : List Host.Cell
  /-- The opcode assignment ENC (30_encoding.md R58). -/
  enc : Enc
  /-- BASE_ISA (00_scope.md R5). No step reads it: its words are IllegalInstruction (92_eei_decisions.md D1, D16). -/
  baseIsa : BaseIsa
  /-- IFETCH_ENDIAN (20_memory.md R41). -/
  ifetchEndian : Endian
  deriving DecidableEq, Repr

/-- The machine right after reset. The spec states no reset value (10_state.md R29), so each value here is a DESIGN
CHOICE: registers, CR and XER_SO 0 (notes/assumptions/5.md), pc the ENTRY of notes/assumptions/4.md, ENC and the byte
order of notes/assumptions/1.md and 3.md, BASE_ISA of notes/assumptions/24.md; the program is empty
(notes/assumptions/25.md). -/
def State.reset : State where
  x := Vector.replicate 32 0
  cr := 0
  xerSo := false
  pc := Config.resetEntry
  mem := []
  enc := Config.resetEnc
  baseIsa := Config.resetBaseIsa
  ifetchEndian := Config.resetEndian

end Sys2Proof.Machine
end

