-- ==== Sys2Proof/Machine/Ops.lean ====
section
/-! DEFINITION. The named operations over the state: general registers, CR fields and bits, the instruction space,
completing an instruction, and IllegalInstruction. -/

namespace Sys2Proof.Machine

/-! General registers (10_state.md R20). -/

/-- The read `x[i]`. -/
def State.gpr (s : State) (i : GprNum) : Word := s.x[i]

/-- The write `x[i] <- v`. -/
def State.setGpr (s : State) (i : GprNum) (v : Word) : State := { s with x := s.x.set i v }

/-! The Condition Register (00_scope.md R7). -/

/-- How far field `k` lies above the least significant end: 28 - 4k. -/
def crfShift (k : FieldNum) : Nat := 28 - 4 * k.val

/-- CRF(k) of a Condition Register value: CR bits 4k+32 to 4k+35. -/
def crfOf (cr : CrWord) (k : FieldNum) : Nibble := cr.extractLsb' (crfShift k) 4

/-- The Condition Register value after CRF(k) <- v. -/
def crfPut (cr : CrWord) (k : FieldNum) (v : Nibble) : CrWord :=
  (cr &&& ~~~(0xF#32 <<< crfShift k)) ||| (v.setWidth 32 <<< crfShift k)

/-- How far CR bit 32+b lies above the least significant end: 31 - b. -/
def crBitShift (b : CrBitNum) : Nat := 31 - b.val

/-- CRBIT(b) of a Condition Register value: CR bit 32+b. -/
def crBitOf (cr : CrWord) (b : CrBitNum) : Bool := cr.getLsbD (crBitShift b)

/-- The Condition Register value after CRBIT(b) <- v. -/
def crBitPut (cr : CrWord) (b : CrBitNum) (v : Bool) : CrWord :=
  (cr &&& ~~~(1#32 <<< crBitShift b)) ||| ((BitVec.ofBool v).setWidth 32 <<< crBitShift b)

/-- The read CRF(k). -/
def State.crf (s : State) (k : FieldNum) : Nibble := crfOf s.cr k

/-- The write CRF(k) <- v. -/
def State.setCrf (s : State) (k : FieldNum) (v : Nibble) : State := { s with cr := crfPut s.cr k v }

/-- The read CRBIT(b). -/
def State.crBit (s : State) (b : CrBitNum) : Bool := crBitOf s.cr b

/-- The write CRBIT(b) <- v. -/
def State.setCrBit (s : State) (b : CrBitNum) (v : Bool) : State := { s with cr := crBitPut s.cr b v }

/-- The field that CR bit 32+b lies in: b div 4 (10_state.md R22). -/
def fieldOfBit (b : CrBitNum) : FieldNum := ⟨b.val / 4, by omega⟩

/-! The instruction space (20_memory.md R41). No instruction reads or writes it; a launch fills it. -/

/-- The canonical form: addresses strictly rising and inside the 64-bit address space. An unlisted address holds no
byte, so no listed byte equals what an unlisted address reads as. -/
abbrev Memory.wf (m : List Host.Cell) : Prop :=
  (m.map Prod.fst).Pairwise (· < ·) ∧ ∀ c ∈ m, c.1 < 2 ^ 64

/-- The byte at an address; none where nothing is listed. -/
def memRead : List Host.Cell → Nat → Option Byte
  | [], _ => none
  | (a', b) :: m, a => if a = a' then some b else memRead m a

/-- Put a byte at an address, keeping the canonical form. -/
def memWrite : List Host.Cell → Nat → Byte → List Host.Cell
  | [], a, b => [(a, b)]
  | (a', b') :: m, a, b =>
    if a < a' then (a, b) :: (a', b') :: m
    else if a = a' then (a, b) :: m
    else (a', b') :: memWrite m a b

/-- Put bytes at consecutive 64-bit addresses. -/
def memWriteBytes : List Host.Cell → Word → List Byte → List Host.Cell
  | m, _, [] => m
  | m, a, b :: bs => memWriteBytes (memWrite m a.toNat b) (a + 1) bs

/-- Put an instruction word at an address, in the given byte order. -/
def memWriteWord (m : List Host.Cell) (en : Endian) (a : Word) (w : InstrWord) : List Host.Cell :=
  memWriteBytes m a (bytesOfWord en w)

/-- The word the program holds at an address; none unless all four bytes are listed (notes/assumptions/2.md). -/
def memWord (m : List Host.Cell) (en : Endian) (a : Nat) : Option InstrWord :=
  match memRead m a, memRead m (a + 1), memRead m (a + 2), memRead m (a + 3) with
  | some b0, some b1, some b2, some b3 => some (wordOfBytes en b0 b1 b2 b3)
  | _, _, _, _ => none

/-- Whether the program holds a word at an address. -/
def holdsWord (m : List Host.Cell) (a : Nat) : Bool := (memWord m .big a).isSome

/-- The aligned addresses at which the program holds a word, in the order of the list. -/
def wordAddresses (m : List Host.Cell) : List Nat :=
  (m.map Prod.fst).filter fun a => a % 4 == 0 && holdsWord m a

/-- 4 past the highest address at which the program holds a word (70_reset_and_hazards.md R153). -/
def programEnd (m : List Host.Cell) : Option Nat := (wordAddresses m).getLast?.map (· + 4)

/-- The word at `pc` (20_memory.md R41). -/
def State.fetch (s : State) : Option InstrWord := memWord s.mem s.ifetchEndian s.pc.toNat

/-! Completing and stopping. -/

/-- The one address whose step is refused because pc + 4 would wrap (10_state.md R26). -/
def topPc : Word := 0xFFFFFFFFFFFFFFFC#64

/-- The end of every instruction: pc <- pc + 4, refused at 2^64 - 4 rather than wrapped (10_state.md R26). The writes
of `s` appear together with the new pc (00_scope.md R15). -/
def complete (s : State) : Host.Outcome State Fault Refusal :=
  if s.pc = topPc then .refused .pcWrap else .next { s with pc := s.pc + 4 }

/-- Taking the machine's one exception: IllegalInstruction(w) ends the run; no state is saved, no mode changes and
control goes nowhere (60_exceptions.md R130, R134). There is no return from it (R135). -/
def raiseIllegal (w : InstrWord) : Host.Outcome State Fault Refusal := .fault (.illegalInstruction w)

end Sys2Proof.Machine
end

