-- ==== Sys2Proof/Machine/Flags.lean ====
section
/-! DEFINITION. The match expression and the flag computation (00_scope.md R13, R16; 40_cr_to_gpr.md R85). -/

namespace Sys2Proof.Machine

/-- (not4(fmap) xor creg) and fmsk: bit j is 1 when bit j of fmsk is 1 and bit j of creg equals bit j of fmap
(00_scope.md R16, 40_cr_to_gpr.md R85). -/
def match4 (creg fmsk fmap : Nibble) : Nibble := (~~~fmap ^^^ creg) &&& fmsk

/-- The one-bit answer of crrweird and crweirder: with M some selected bit matches, without M every selected bit does
(40_cr_to_gpr.md R80, 42_cr_to_cr.md R103). -/
def testField (m : Bool) (creg fmsk fmap : Nibble) : Bool :=
  if m then match4 creg fmsk fmap != 0 else match4 creg fmsk fmap == fmsk

/-- LT, GT, EQ of the signed comparison of `v` with zero, then SO (00_scope.md R13; PRESUMED, unsafe,
notes/assumptions/6.md). -/
def analyse (v : Word) (so : Bool) : Nibble :=
  BitVec.ofBool (v.slt 0) ++ BitVec.ofBool ((0 : Word).slt v) ++ BitVec.ofBool (v == 0) ++ BitVec.ofBool so

end Sys2Proof.Machine
end

