-- ==== Sys2Proof/Machine/Operands.lean ====
section
/-! DEFINITION. The operand forms: (RA|0), the two ways a 4-bit value is taken from a register, the merge of a target
field, and the widening of a result to a register. -/

namespace Sys2Proof.Machine

/-- (RA|0): 0 when the RA field is 0, else x[RA] (00_scope.md R11). -/
def State.ra0 (s : State) (ra : GprNum) : Word := if ra = 0 then 0 else s.gpr ra

/-- a.bits[3:0], the source's a[60:63] (41_gpr_to_cr.md R91). -/
def lowNibble (a : Word) : Nibble := a.extractLsb' 0 4

/-- reg.bits[0:0] four times (41_gpr_to_cr.md R92). -/
def lowBitFourTimes (a : Word) : Nibble := if a.getLsbD 0 then 15 else 0

/-- With M the bits of the old field that fmsk does not select are kept, without M they are 0
(41_gpr_to_cr.md R90, 42_cr_to_cr.md R100). `result` holds only selected bits. -/
def mergeField (m : Bool) (result old fmsk : Nibble) : Nibble :=
  if m then result ||| (old &&& ~~~fmsk) else result

/-- zext_64 of a one-bit result (40_cr_to_gpr.md R80). -/
def wordOfBit (b : Bool) : Word := (BitVec.ofBool b).setWidth 64

/-- zext_64 of a four-bit result (40_cr_to_gpr.md R83). -/
def wordOfNibble (n : Nibble) : Word := n.setWidth 64

end Sys2Proof.Machine
end

