-- ==== Sys2Proof/Machine/CrToCr.lean ====
section
/-! DEFINITION. CR field to CR field and to CR bit: mcrfm, crweirder (42_cr_to_cr.md). -/

namespace Sys2Proof.Machine

/-- The value mcrfm writes to field BF; the final xor is unconditional (42_cr_to_cr.md R100, 00_scope.md R12 (c);
notes/assumptions/7.md). -/
def mcrfmValue (s : State) (bf bfa : FieldNum) (m : Bool) (fmsk fmap : Nibble) : Nibble :=
  mergeField m (fmsk &&& s.crf bfa) (s.crf bf) fmsk ^^^ fmap

/-- `mcrfm` (42_cr_to_cr.md R100). -/
def execMcrfm (bf bfa : FieldNum) (m : Bool) (fmsk fmap : Nibble) (s : State) : Host.Outcome State Fault Refusal :=
  complete (s.setCrf bf (mcrfmValue s bf bfa m fmsk fmap))

/-- `crweirder`: field BFA is read before the bit is written (42_cr_to_cr.md R103). -/
def execCrweirder (bt : CrBitNum) (bfa : FieldNum) (m : Bool) (fmsk fmap : Nibble) (s : State) :
    Host.Outcome State Fault Refusal :=
  complete (s.setCrBit bt (testField m (s.crf bfa) fmsk fmap))

end Sys2Proof.Machine
end

