-- ==== Sys2Proof/Machine/CrToGpr.lean ====
section
/-! DEFINITION. CR field to general register: crrweird, mfcrrweird and their recording forms (40_cr_to_gpr.md). -/

namespace Sys2Proof.Machine

/-- The recording write CRF(0) <- analyse(v), with XER_SO of the state (40_cr_to_gpr.md R81, R84). -/
def State.record (s : State) (v : Word) : State := s.setCrf 0 (analyse v s.xerSo)

/-- The value crrweird writes to RT (40_cr_to_gpr.md R80). -/
def crrweirdValue (s : State) (bfa : FieldNum) (m : Bool) (fmsk fmap : Nibble) : Word :=
  wordOfBit (testField m (s.crf bfa) fmsk fmap)

/-- The value mfcrrweird writes to RT (40_cr_to_gpr.md R83). -/
def mfcrrweirdValue (s : State) (bfa : FieldNum) (fmsk fmap : Nibble) : Word :=
  wordOfNibble (match4 (s.crf bfa) fmsk fmap)

/-- `crrweird` (40_cr_to_gpr.md R80). -/
def execCrrweird (rt : GprNum) (bfa : FieldNum) (m : Bool) (fmsk fmap : Nibble) (s : State) :
    Host.Outcome State Fault Refusal :=
  complete (s.setGpr rt (crrweirdValue s bfa m fmsk fmap))

/-- `crrweird.`: field BFA is read before field 0 is written (40_cr_to_gpr.md R81). -/
def execCrrweirdRc (rt : GprNum) (bfa : FieldNum) (m : Bool) (fmsk fmap : Nibble) (s : State) :
    Host.Outcome State Fault Refusal :=
  complete ((s.setGpr rt (crrweirdValue s bfa m fmsk fmap)).record (crrweirdValue s bfa m fmsk fmap))

/-- `mfcrrweird` (40_cr_to_gpr.md R83). -/
def execMfcrrweird (rt : GprNum) (bfa : FieldNum) (fmsk fmap : Nibble) (s : State) :
    Host.Outcome State Fault Refusal :=
  complete (s.setGpr rt (mfcrrweirdValue s bfa fmsk fmap))

/-- `mfcrrweird.`: field BFA is read before field 0 is written (40_cr_to_gpr.md R84). -/
def execMfcrrweirdRc (rt : GprNum) (bfa : FieldNum) (fmsk fmap : Nibble) (s : State) :
    Host.Outcome State Fault Refusal :=
  complete ((s.setGpr rt (mfcrrweirdValue s bfa fmsk fmap)).record (mfcrrweirdValue s bfa fmsk fmap))

end Sys2Proof.Machine
end

