-- ==== Sys2Proof/Machine/GprToCr.lean ====
section
/-! DEFINITION. General register to CR field: mtcrrweird, mtcrweird, and the pseudo-ops of mtcrweird
(41_gpr_to_cr.md). -/

namespace Sys2Proof.Machine

/-- The last lines mtcrrweird and mtcrweird share: match, merge under M, write field BF (41_gpr_to_cr.md R90). -/
def State.matchIntoField (s : State) (bf : FieldNum) (creg : Nibble) (m : Bool) (fmsk fmap : Nibble) : State :=
  s.setCrf bf (mergeField m (match4 creg fmsk fmap) (s.crf bf) fmsk)

/-- `mtcrrweird` (41_gpr_to_cr.md R91). -/
def execMtcrrweird (bf : FieldNum) (ra : GprNum) (m : Bool) (fmsk fmap : Nibble) (s : State) :
    Host.Outcome State Fault Refusal :=
  complete (s.matchIntoField bf (lowNibble (s.ra0 ra)) m fmsk fmap)

/-- `mtcrweird` (41_gpr_to_cr.md R92). -/
def execMtcrweird (bf : FieldNum) (ra : GprNum) (m : Bool) (fmsk fmap : Nibble) (s : State) :
    Host.Outcome State Fault Refusal :=
  complete (s.matchIntoField bf (lowBitFourTimes (s.ra0 ra)) m fmsk fmap)

/-- `mtcri BF,fmap`: the operands of its expansion, fmap complemented (41_gpr_to_cr.md R96). -/
def execMtcri (bf : FieldNum) (fmap : Nibble) (s : State) : Host.Outcome State Fault Refusal :=
  complete (s.matchIntoField bf (lowBitFourTimes (s.ra0 0)) false 0b1111 (~~~fmap))

/-- `mtcrset BF,fmsk`: the operands of its expansion (41_gpr_to_cr.md R97). -/
def execMtcrset (bf : FieldNum) (fmsk : Nibble) (s : State) : Host.Outcome State Fault Refusal :=
  complete (s.matchIntoField bf (lowBitFourTimes (s.ra0 0)) true fmsk 0b0000)

/-- `mtcrclr BF,fmsk`: the operands of its expansion (41_gpr_to_cr.md R98). -/
def execMtcrclr (bf : FieldNum) (fmsk : Nibble) (s : State) : Host.Outcome State Fault Refusal :=
  complete (s.matchIntoField bf (lowBitFourTimes (s.ra0 0)) true fmsk 0b1111)

end Sys2Proof.Machine
end

