-- ==== Sys2Proof/Machine/Step.lean ====
section
/-! DEFINITION. One step: fetch the word at pc, decode it, execute it (INDEX.md; 20_memory.md R41, 30_encoding.md R67,
70_reset_and_hazards.md R153). -/

namespace Sys2Proof.Machine

/-- What the machine does with a fetched word (30_encoding.md R67). Fetch and decode come before the instruction, so
IllegalInstruction and a reserved bit stop the step at every pc (60_exceptions.md R133, notes/assumptions/13.md). -/
def stepWord (w : InstrWord) (s : State) : Host.Outcome State Fault Refusal :=
  match decode s.enc w with
  | .instr i => exec i s
  | .reserved op => .refused (.reservedBits op w)
  | .illegal => raiseIllegal w
  | .ambiguous => .refused (.ambiguousWord w)

/-- What the machine does where the program holds no word: the run has ended, or the agent is stuck
(70_reset_and_hazards.md R153, 20_memory.md R41; notes/assumptions/15.md). -/
def stepNoWord (s : State) : Host.Outcome State Fault Refusal :=
  if programEnd s.mem = some s.pc.toNat then .fault (.endOfProgram s.pc) else .fault (.stuck s.pc)

/-- One step of the one agent. -/
def step (s : State) : Host.Outcome State Fault Refusal :=
  if s.pc.toNat % 4 ≠ 0 then .refused (.misalignedPc s.pc)
  else
    match s.fetch with
    | some w => stepWord w s
    | none => stepNoWord s

/-- `s` with a word placed at its pc, in its byte order: the low `nbits` bits are `w`, the others 0
(notes/assumptions/25.md). -/
def State.withFetchWord (s : State) (nbits w : Nat) : State :=
  { s with mem := memWriteWord s.mem s.ifetchEndian s.pc (BitVec.ofNat 32 (w % 2 ^ nbits)) }

end Sys2Proof.Machine
end

