-- ==== Sys2Proof/Machine/Deps.lean ====
section
/-! DEFINITION. Which locations each instruction reads and writes (10_state.md R23, R30; 70_reset_and_hazards.md R155).
The step does not use these tables; claims say that the meanings keep to them. -/

namespace Sys2Proof.Machine

/-- The locations an instruction depends on or changes, pc apart. -/
inductive Loc where
  | gpr (i : GprNum) | field (k : FieldNum) | xerSo
  deriving DecidableEq, Repr

/-- The content of a location, zero-extended to 64 bits. -/
def State.at (s : State) : Loc → Word
  | .gpr i => s.gpr i
  | .field k => wordOfNibble (s.crf k)
  | .xerSo => wordOfBit s.xerSo

/-- RA, unless the field is 0 (00_scope.md R11). -/
def readsOfRa0 (ra : GprNum) : List Loc := if ra = 0 then [] else [.gpr ra]

/-- Field BF, only with M (70_reset_and_hazards.md R155). -/
def readsOfTarget (m : Bool) (bf : FieldNum) : List Loc := if m then [.field bf] else []

/-- What an instruction reads (10_state.md R30, 70_reset_and_hazards.md R155). -/
def readsOf : Instr → List Loc
  | .crrweird _ bfa _ _ _ => [.field bfa]
  | .crrweirdRc _ bfa _ _ _ => [.field bfa, .xerSo]
  | .mfcrrweird _ bfa _ _ => [.field bfa]
  | .mfcrrweirdRc _ bfa _ _ => [.field bfa, .xerSo]
  | .mtcrrweird bf ra m _ _ => readsOfRa0 ra ++ readsOfTarget m bf
  | .mtcrweird bf ra m _ _ => readsOfRa0 ra ++ readsOfTarget m bf
  | .mcrfm bf bfa m _ _ => .field bfa :: readsOfTarget m bf
  | .crweirder bt bfa _ _ _ => [.field bfa, .field (fieldOfBit bt)]
  | .mtcri _ _ => []
  | .mtcrset bf _ => [.field bf]
  | .mtcrclr bf _ => [.field bf]

/-- What an instruction writes (10_state.md R23, R30, 70_reset_and_hazards.md R155). -/
def writesOf : Instr → List Loc
  | .crrweird rt _ _ _ _ => [.gpr rt]
  | .crrweirdRc rt _ _ _ _ => [.gpr rt, .field 0]
  | .mfcrrweird rt _ _ _ => [.gpr rt]
  | .mfcrrweirdRc rt _ _ _ => [.gpr rt, .field 0]
  | .mtcrrweird bf _ _ _ _ => [.field bf]
  | .mtcrweird bf _ _ _ _ => [.field bf]
  | .mcrfm bf _ _ _ _ => [.field bf]
  | .crweirder bt _ _ _ _ => [.field (fieldOfBit bt)]
  | .mtcri bf _ => [.field bf]
  | .mtcrset bf _ => [.field bf]
  | .mtcrclr bf _ => [.field bf]

/-- Two states hold the same at every location of a list. -/
def State.AgreeOn (ls : List Loc) (s t : State) : Prop := ∀ l ∈ ls, s.at l = t.at l

end Sys2Proof.Machine
end

