-- ==== Sys2Proof/Machine/Launch.lean ====
section
/-! DEFINITION. The launch of a run (70_reset_and_hazards.md R150, R151). -/

namespace Sys2Proof.Machine

/-- What a launch gives (70_reset_and_hazards.md R151), with BASE_ISA, on which the assumption on ENC rests
(30_encoding.md R58), and the byte order for a model that holds the program as bytes (20_memory.md R41). -/
structure LaunchParams where
  program : List (Word × InstrWord)
  enc : Enc
  baseIsa : BaseIsa
  ifetchEndian : Endian
  entry : Word
  x : Vector Word 32
  cr : CrWord
  xerSo : Bool
  deriving DecidableEq, Repr

/-- Put the words of a program into the instruction space. -/
def loadProgram (en : Endian) : List (Word × InstrWord) → List Host.Cell
  | [] => []
  | (a, w) :: rest => memWriteWord (loadProgram en rest) en a w

/-- Whether the program is a map from 4-byte-aligned addresses to words (20_memory.md R41). -/
def isProgram (p : List (Word × InstrWord)) : Bool :=
  p.all (fun c => c.1.toNat % 4 == 0) && decide (p.map Prod.fst).Nodup

/-- The launch state, or why there is none (70_reset_and_hazards.md R151, 20_memory.md R43, 30_encoding.md R58;
notes/assumptions/26.md). -/
def launch (p : LaunchParams) : Host.Outcome State Fault Refusal :=
  if p.entry.toNat % 4 ≠ 0 then .refused .launchMisalignedEntry
  else if ¬ (p.enc.Admissible ∧ p.enc.disjointFrom p.baseIsa = true) then .refused .launchInadmissibleEnc
  else if isProgram p.program = false then .refused .launchNoProgram
  else if p.entry ∉ p.program.map Prod.fst then .refused .launchNoWordAtEntry
  else .next
    { x := p.x, cr := p.cr, xerSo := p.xerSo, pc := p.entry, mem := loadProgram p.ifetchEndian p.program,
      enc := p.enc, baseIsa := p.baseIsa, ifetchEndian := p.ifetchEndian }

end Sys2Proof.Machine
end

