-- ==== Sys2Proof/Machine/Vectorized.lean ====
section
/-! DEFINITION. The SVP64-prefixed forms (45_vectorized.md): the two loops as functions of the inputs of R110, the
classification of R111, and the identification of the arrays with the scalar state (10_state.md R31). A step never
reaches them: the prefix has no encoding in the spec (R110, 30_encoding.md R63; notes/assumptions/19.md). -/

namespace Sys2Proof.Machine

/-! The classification (45_vectorized.md R111). -/

/-- The SVP64 type the page links to. -/
inductive SvType where
  | normal | crOps
  deriving DecidableEq, Repr

/-- The capabilities the page names; it defines none of them. -/
inductive SvCapability where
  | rc1Record | rc1DataDependent | dataDependent3 | predicateResult3 | dataDependent5
  deriving DecidableEq, Repr

/-- The SVP64 type of each instruction (45_vectorized.md R111). -/
def svType : Op → SvType
  | .crrweird => .normal
  | .mfcrrweird => .normal
  | .mtcrrweird => .normal
  | .mtcrweird => .crOps
  | .mcrfm => .crOps
  | .crweirder => .crOps

/-- The capabilities named for each instruction (45_vectorized.md R111). -/
def svCapabilities : Op → List SvCapability
  | .crrweird => [.rc1Record, .rc1DataDependent]
  | .mfcrrweird => [.rc1Record, .rc1DataDependent]
  | .mtcrrweird => [.rc1DataDependent]
  | .mtcrweird => [.dataDependent3, .predicateResult3]
  | .mcrfm => [.dataDependent3, .predicateResult3]
  | .crweirder => [.dataDependent5]

/-! The inputs (45_vectorized.md R110). -/

/-- CRF_SV and x_SV; their lengths are NCRF_SV, at least 10, and NGPR_SV, at least 32 (10_state.md R31, 00_scope.md R5,
92_eei_decisions.md D22; notes/assumptions/20.md). -/
structure SvArrays where
  crf : List Nibble
  x : List Word
  crf_length : 10 ≤ crf.length
  x_length : 32 ≤ x.length
  deriving DecidableEq, Repr

/-- The loop inputs of 45_vectorized.md R110, and `draw`, the free value for the bits R114 (b) leaves open
(notes/assumptions/21.md). -/
structure SvContext where
  vl : Nat
  bbIsVec : Bool
  rtIsVec : Bool
  bbElwidth : BitVec 2
  rtElwidth : BitVec 2
  mapreduce : Bool
  draw : Word
  deriving DecidableEq, Repr

/-- Reading an array element; the loops read only numbers that `svInRange` admits. -/
def SvArrays.field (a : SvArrays) (n : Nat) : Nibble := a.crf.getD n 0

/-- Reading a register of the array; the loops read only numbers that `svInRange` admits. -/
def SvArrays.gpr (a : SvArrays) (n : Nat) : Word := a.x.getD n 0

/-- Writing a register of the array; the loops write only numbers that `svInRange` admits. -/
def SvArrays.setGpr (a : SvArrays) (n : Nat) (v : Word) : SvArrays :=
  { a with x := a.x.set n v, x_length := by simpa using a.x_length }

/-- The elements that run: all VL of them, but only element 0 with a scalar RT outside mapreduce
(45_vectorized.md R113, R116). -/
def svElements (c : SvContext) : List Nat :=
  List.range (if c.rtIsVec || c.mapreduce then c.vl else min c.vl 1)

/-- The field element `i` reads: CR{BB+i} for a vector BB, CR{BB} otherwise (45_vectorized.md R113). -/
def svSource (c : SvContext) (bb i : Nat) : Nat := if c.bbIsVec then bb + i else bb

/-- Whether every field read and every register written exists (notes/assumptions/20.md). -/
def svInRange (c : SvContext) (a : SvArrays) (bb : Nat) (dest : Nat → Nat) : Bool :=
  (svElements c).all fun i => decide (svSource c bb i < a.crf.length) && decide (dest i < a.x.length)

/-! Bits and nibbles of a register, counted from the least significant end. -/

/-- The low `k` bits of a register; the others 0. -/
def lowBits (k : Nat) (v : Word) : Word := v &&& BitVec.ofNat 64 (2 ^ k - 1)

/-- Bit `j` of a register set to `b`. -/
def putBit (v : Word) (j : Nat) (b : Bool) : Word := (v &&& ~~~(1#64 <<< j)) ||| (wordOfBit b <<< j)

/-- Nibble `j` of a register set to `n`. -/
def putNibble (v : Word) (j : Nat) (n : Nibble) : Word := (v &&& ~~~(0xF#64 <<< (4 * j))) ||| (wordOfNibble n <<< (4 * j))

/-! sv.crrweird (45_vectorized.md R113, R114, R118). -/

/-- The packing count: 1, 2, 4 or 8 (45_vectorized.md R110, R115). -/
def svPackCount (elwidth : BitVec 2) : Nat := 2 ^ elwidth.toNat

/-- The register element `i` goes to and the bit of it (45_vectorized.md R113). -/
def svCrrweirdDest (c : SvContext) (rt i : Nat) : Nat × Nat :=
  if c.rtIsVec then (rt + i / svPackCount c.bbElwidth, i % svPackCount c.bbElwidth) else (rt, i)

/-- One element of the loop: for a vector RT the bits above the packing group are zeroed, for a scalar RT the other bits
are unchanged (45_vectorized.md R113, R114 (a)). -/
def svCrrweirdElement (c : SvContext) (rt bb : Nat) (m : Bool) (fmsk fmap : Nibble) (a : SvArrays) (i : Nat) :
    SvArrays :=
  let dest := svCrrweirdDest c rt i
  let old := a.gpr dest.1
  let kept := if c.rtIsVec then lowBits (svPackCount c.bbElwidth) old else old
  a.setGpr dest.1 (putBit kept dest.2 (testField m (a.field (svSource c bb i)) fmsk fmap))

/-- The positions VL mod k to k-1 of the last register of a vector RT take the free value
(45_vectorized.md R114 (b), 92_eei_decisions.md D25). -/
def svOpenBits (c : SvContext) (rt : Nat) (a : SvArrays) : SvArrays :=
  let k := svPackCount c.bbElwidth
  let q := rt + c.vl / k
  if c.rtIsVec && c.vl % k != 0 then
    a.setGpr q (lowBits (c.vl % k) (a.gpr q) ||| (lowBits k c.draw &&& ~~~(lowBits (c.vl % k) c.draw)))
  else a

/-- The loop of sv.crrweird, unpredicated and with Rc=0 (45_vectorized.md R110, R113). -/
def svCrrweird (rt bb : Nat) (m : Bool) (fmsk fmap : Nibble) (c : SvContext) (a : SvArrays) :
    Host.Outcome SvArrays Fault Refusal :=
  if c.rtElwidth ≠ 0 then .refused .svDestElwidth
  else if c.rtIsVec = false ∧ c.mapreduce = true ∧ 64 < c.vl then .refused .svScalarTooLong
  else if svInRange c a bb (fun i => (svCrrweirdDest c rt i).1) = false then .refused .svIndexOutOfRange
  else .next (svOpenBits c rt ((svElements c).foldl (svCrrweirdElement c rt bb m fmsk fmap) a))

/-! sv.mfcrrweird (45_vectorized.md R115, R116, R117, R118). -/

/-- The width of a destination element (45_vectorized.md R115). -/
def svDestWidth (elwidth : BitVec 2) : Nat :=
  if elwidth = 0 then 64 else if elwidth = 1 then 8 else if elwidth = 2 then 16 else 32

/-- How many 4-bit results share a destination element: the packing count, limited for counts 4 and 8 by what the
element holds, `bwid / 4` by 90_conflicts.md C6 (45_vectorized.md R116). -/
def svNibbleCount (rtElwidth bbElwidth : BitVec 2) : Nat :=
  if bbElwidth = 0 then 1
  else if bbElwidth = 1 then 2
  else if bbElwidth = 2 then min 4 (svDestWidth rtElwidth / 4)
  else min 8 (svDestWidth rtElwidth / 4)

/-- (idx, boff) of element `i` for a vector RT (45_vectorized.md R116, R117). -/
def svPackIndex (rtElwidth bbElwidth : BitVec 2) (i : Nat) : Nat × Nat :=
  (i / svNibbleCount rtElwidth bbElwidth, i % svNibbleCount rtElwidth bbElwidth)

/-- The register element `i` goes to and the nibble of it (45_vectorized.md R116). -/
def svMfcrrweirdDest (c : SvContext) (rt i : Nat) : Nat × Nat :=
  if c.rtIsVec then
    (rt + (svPackIndex c.rtElwidth c.bbElwidth i).1, (svPackIndex c.rtElwidth c.bbElwidth i).2)
  else (rt, i)

/-- A destination register of a vector RT starts at zero, since every bit that receives no result is zero
(45_vectorized.md R116, 90_conflicts.md C10). -/
def svMfcrrweirdClear (c : SvContext) (rt : Nat) (a : SvArrays) (i : Nat) : SvArrays :=
  if c.rtIsVec then a.setGpr (svMfcrrweirdDest c rt i).1 0 else a

/-- One element of the loop: its four-bit result goes to its nibble (45_vectorized.md R116). -/
def svMfcrrweirdElement (c : SvContext) (rt bb : Nat) (fmsk fmap : Nibble) (a : SvArrays) (i : Nat) : SvArrays :=
  let dest := svMfcrrweirdDest c rt i
  a.setGpr dest.1 (putNibble (a.gpr dest.1) dest.2 (match4 (a.field (svSource c bb i)) fmsk fmap))

/-- The loop of sv.mfcrrweird, unpredicated and with Rc=0 (45_vectorized.md R110, R116). -/
def svMfcrrweird (rt bb : Nat) (fmsk fmap : Nibble) (c : SvContext) (a : SvArrays) :
    Host.Outcome SvArrays Fault Refusal :=
  if c.rtElwidth ≠ 0 then .refused .svDestElwidth
  else if c.rtIsVec = false ∧ c.mapreduce = true ∧ 16 < c.vl then .refused .svScalarTooLong
  else if svInRange c a bb (fun i => (svMfcrrweirdDest c rt i).1) = false then .refused .svIndexOutOfRange
  else .next ((svElements c).foldl (svMfcrrweirdElement c rt bb fmsk fmap)
    ((svElements c).foldl (svMfcrrweirdClear c rt) a))

/-! All prefixed forms. -/

/-- A prefixed form: the two with a loop, with register and field numbers that may pass the scalar range
(10_state.md R31), and the four the page gives no loop for (45_vectorized.md R120). -/
inductive SvForm where
  | crrweird (rt bb : Nat) (m : Bool) (fmsk fmap : Nibble)
  | mfcrrweird (rt bb : Nat) (fmsk fmap : Nibble)
  | mtcrrweird | mtcrweird | mcrfm | crweirder
  deriving DecidableEq, Repr

/-- What a prefixed form does to the arrays (45_vectorized.md R113, R116, R120). -/
def svExec (f : SvForm) (c : SvContext) (a : SvArrays) : Host.Outcome SvArrays Fault Refusal :=
  match f with
  | .crrweird rt bb m fmsk fmap => svCrrweird rt bb m fmsk fmap c a
  | .mfcrrweird rt bb fmsk fmap => svMfcrrweird rt bb fmsk fmap c a
  | .mtcrrweird => .refused (.svNoLoop .mtcrrweird)
  | .mtcrweird => .refused (.svNoLoop .mtcrweird)
  | .mcrfm => .refused (.svNoLoop .mcrfm)
  | .crweirder => .refused (.svNoLoop .crweirder)

/-! The identification with the scalar state (10_state.md R31). -/

/-- The arrays that hold the scalar state first, then the further fields, at least the two that bring NCRF_SV to 10
(00_scope.md R5), and registers. -/
def State.svArrays (s : State) (moreFields : List Nibble) (moreRegs : List Word) (h : 2 ≤ moreFields.length) :
    SvArrays where
  crf := (List.finRange 8).map s.crf ++ moreFields
  x := s.x.toList ++ moreRegs
  crf_length := by simpa using Nat.add_le_add_left h 8
  x_length := by simp

/-- The scalar state with the first eight fields and the first 32 registers of the arrays, which the arrays always
have. -/
def State.withSvArrays (s : State) (a : SvArrays) : State :=
  { s with
    cr := (List.finRange 8).foldl (fun cr k => crfPut cr k (a.field k.val)) s.cr
    x := Vector.ofFn fun i => a.gpr i.val }

end Sys2Proof.Machine
end

