-- ==== Sys2Proof/Safety.lean ====
section
/-! DEFINITION. What claims mean by a good state and by a run that does not stop early. -/

namespace Sys2Proof.Machine

/-- `w` matches `op` under ENC, in the bit positions of 30_encoding.md R67. -/
def WordMatches (e : Enc) (op : Op) (w : InstrWord) : Prop :=
  w.toNat / 2 ^ 26 % 2 ^ 6 = (e.opcode op).po.toNat ∧ w.toNat / 2 ^ 10 % 2 ^ 3 = (e.opcode op).xoHi.toNat ∧
    w.toNat / 2 % 2 ^ 5 = (e.opcode op).xoLo.toNat ∧ ∀ b, e.b31 op = some b → w.toNat % 2 = b.toNat

/-- No word that matches one of the six is an instruction of BASE_ISA (30_encoding.md R58). -/
def BaseDisjoint (e : Enc) (b : BaseIsa) : Prop :=
  ∀ w, b.has w = true → ∀ op, ¬ WordMatches e op w

/-- The invariant of a launched machine: pc is a multiple of 4 (20_memory.md R43), the instruction space is in its
canonical form (R41), and ENC meets its two assumptions (30_encoding.md R58). -/
structure State.Inv (s : State) : Prop where
  aligned : s.pc.toNat % 4 = 0
  memory : Memory.wf s.mem
  enc : s.enc.Admissible
  base : BaseDisjoint s.enc s.baseIsa

/-- Some bit that fmsk selects equals the same bit of fmap: the test of M=1 (00_scope.md R16, 40_cr_to_gpr.md R80). -/
def SomeSelectedMatches (creg fmsk fmap : Nibble) : Prop :=
  ∃ j, j < 4 ∧ fmsk.getLsbD j = true ∧ creg.getLsbD j = fmap.getLsbD j

/-- Every bit that fmsk selects equals the same bit of fmap: the test of M=0 (00_scope.md R16, 40_cr_to_gpr.md R80). -/
def EverySelectedMatches (creg fmsk fmap : Nibble) : Prop :=
  ∀ j, j < 4 → fmsk.getLsbD j = true → creg.getLsbD j = fmap.getLsbD j

/-- The test of crrweird and crweirder (40_cr_to_gpr.md R80, 42_cr_to_cr.md R103). -/
def TestHolds (m : Bool) (creg fmsk fmap : Nibble) : Prop :=
  (m = true ∧ SomeSelectedMatches creg fmsk fmap) ∨ (m = false ∧ EverySelectedMatches creg fmsk fmap)

/-- Whether bit `j` is selected and equals fmap's: bit `j` of the match (00_scope.md R16). -/
def matchBit (creg fmsk fmap : Nibble) (j : Nat) : Bool :=
  fmsk.getLsbD j && (creg.getLsbD j == fmap.getLsbD j)

/-- Everything but the general registers, CR and pc is as before: XER_SO, ENC, BASE_ISA, the byte order, and every byte of
the instruction space. -/
def State.SameOutside (s t : State) : Prop :=
  t.xerSo = s.xerSo ∧ t.enc = s.enc ∧ t.baseIsa = s.baseIsa ∧ t.ifetchEndian = s.ifetchEndian ∧
    ∀ a, memRead t.mem a = memRead s.mem a

/-- Register number `k` once the numbers `r` and `r'` are exchanged. -/
def swapNum (r r' k : GprNum) : GprNum := if k = r then r' else if k = r' then r else k

/-- The instruction with the register numbers `r` and `r'` exchanged in its operands. -/
def renameGprs (r r' : GprNum) : Instr → Instr
  | .crrweird rt bfa m fmsk fmap => .crrweird (swapNum r r' rt) bfa m fmsk fmap
  | .crrweirdRc rt bfa m fmsk fmap => .crrweirdRc (swapNum r r' rt) bfa m fmsk fmap
  | .mfcrrweird rt bfa fmsk fmap => .mfcrrweird (swapNum r r' rt) bfa fmsk fmap
  | .mfcrrweirdRc rt bfa fmsk fmap => .mfcrrweirdRc (swapNum r r' rt) bfa fmsk fmap
  | .mtcrrweird bf ra m fmsk fmap => .mtcrrweird bf (swapNum r r' ra) m fmsk fmap
  | .mtcrweird bf ra m fmsk fmap => .mtcrweird bf (swapNum r r' ra) m fmsk fmap
  | .mcrfm bf bfa m fmsk fmap => .mcrfm bf bfa m fmsk fmap
  | .crweirder bt bfa m fmsk fmap => .crweirder bt bfa m fmsk fmap
  | .mtcri bf fmap => .mtcri bf fmap
  | .mtcrset bf fmsk => .mtcrset bf fmsk
  | .mtcrclr bf fmsk => .mtcrclr bf fmsk

/-- The state with the contents of registers `r` and `r'` exchanged. -/
def State.swapGprs (r r' : GprNum) (s : State) : State := (s.setGpr r (s.gpr r')).setGpr r' (s.gpr r)

/-- `w` has a reserved bit of `op` set: instruction bit 11 of mfcrrweird, bits 9 to 10 of mcrfm
(30_encoding.md R60). -/
def ReservedBitSet (op : Op) (w : InstrWord) : Prop :=
  (op = .mfcrrweird ∧ w.getLsbD 20 = true) ∨ (op = .mcrfm ∧ (w.getLsbD 21 = true ∨ w.getLsbD 22 = true))

/-- The word at offset `k` from pc, counted in words, decodes to an instruction. -/
def State.HoldsInstr (s : State) (k : Nat) : Prop :=
  ∃ w i, memWord s.mem s.ifetchEndian (s.pc.toNat + 4 * k) = some w ∧ decode s.enc w = .instr i

/-- How far byte `i` of a word lies above the word's least significant end: with `big` the byte at the lowest address is
instruction bits 0 to 7, with `little` it is bits 24 to 31 (20_memory.md R41). -/
def byteShift (en : Endian) (i : Nat) : Nat :=
  match en with
  | .big => 8 * (3 - i)
  | .little => 8 * i

/-- The four bytes from address `a` are those of `w`, in the given order (20_memory.md R41). -/
def BytesAreWord (m : List Host.Cell) (en : Endian) (a : Nat) (w : InstrWord) : Prop :=
  ∀ i, i < 4 → ∃ b, memRead m (a + i) = some b ∧ b.toNat = w.toNat / 2 ^ byteShift en i % 2 ^ 8

/-- The run has reached its normal end (70_reset_and_hazards.md R153). -/
def State.Ended (s : State) : Prop := step s = .fault (.endOfProgram s.pc)

end Sys2Proof.Machine
end

