-- ==== Sys2Proof/Certificates/Slice0/Obligations.lean ====
section
/-! DEFINITION. The statements for the provers. -/

open Sys2Proof Sys2Proof.Machine

/-! Encoding and decoding. -/

/-- Decoding the word of any instruction, under any admissible ENC, gives the instruction back; a pseudo-op gives its
expansion (30_encoding.md R56, R58, R66, R67; R56 and R67 are marked as the spec's own inference). -/
def Obligations.DecodeOfEncodeIsTheInstruction : Prop :=
  ∀ e : Enc, e.Admissible → ∀ i : Instr, decode e (encode e i) = .instr (coreOf i)

/-- A word that decodes to an instruction is the word of that instruction: decoding drops no bit (R56, R67, the spec's
own inference). -/
def Obligations.EncodeOfDecodeIsTheWord : Prop :=
  ∀ (e : Enc) (w : InstrWord) (i : Instr), decode e w = .instr i → encode e i = w ∧ coreOf i = i

/-- The word of each instruction is the sum of R56, operand by operand (the spec infers it from its R52 and R53). -/
def Obligations.WordIsTheSumOfItsFields : Prop :=
  ∀ e : Enc,
    (∀ rt bfa m fmsk fmap, (encode e (.crrweird rt bfa m fmsk fmap)).toNat =
      e.crrweird.po.toNat * 2 ^ 26 + rt.val * 2 ^ 21 + m.toNat * 2 ^ 20 + fmsk.toNat * 2 ^ 16 + bfa.val * 2 ^ 13 +
        e.crrweird.xoHi.toNat * 2 ^ 10 + fmap.toNat * 2 ^ 6 + e.crrweird.xoLo.toNat * 2) ∧
    (∀ rt bfa m fmsk fmap, (encode e (.crrweirdRc rt bfa m fmsk fmap)).toNat =
      e.crrweird.po.toNat * 2 ^ 26 + rt.val * 2 ^ 21 + m.toNat * 2 ^ 20 + fmsk.toNat * 2 ^ 16 + bfa.val * 2 ^ 13 +
        e.crrweird.xoHi.toNat * 2 ^ 10 + fmap.toNat * 2 ^ 6 + e.crrweird.xoLo.toNat * 2 + 1) ∧
    (∀ rt bfa fmsk fmap, (encode e (.mfcrrweird rt bfa fmsk fmap)).toNat =
      e.mfcrrweird.po.toNat * 2 ^ 26 + rt.val * 2 ^ 21 + fmsk.toNat * 2 ^ 16 + bfa.val * 2 ^ 13 +
        e.mfcrrweird.xoHi.toNat * 2 ^ 10 + fmap.toNat * 2 ^ 6 + e.mfcrrweird.xoLo.toNat * 2) ∧
    (∀ rt bfa fmsk fmap, (encode e (.mfcrrweirdRc rt bfa fmsk fmap)).toNat =
      e.mfcrrweird.po.toNat * 2 ^ 26 + rt.val * 2 ^ 21 + fmsk.toNat * 2 ^ 16 + bfa.val * 2 ^ 13 +
        e.mfcrrweird.xoHi.toNat * 2 ^ 10 + fmap.toNat * 2 ^ 6 + e.mfcrrweird.xoLo.toNat * 2 + 1) ∧
    (∀ bf ra m fmsk fmap, (encode e (.mtcrrweird bf ra m fmsk fmap)).toNat =
      e.mtcrrweird.opcode.po.toNat * 2 ^ 26 + ra.val * 2 ^ 21 + m.toNat * 2 ^ 20 + fmsk.toNat * 2 ^ 16 +
        bf.val * 2 ^ 13 + e.mtcrrweird.opcode.xoHi.toNat * 2 ^ 10 + fmap.toNat * 2 ^ 6 +
        e.mtcrrweird.opcode.xoLo.toNat * 2 + e.mtcrrweird.b31.toNat) ∧
    (∀ bf ra m fmsk fmap, (encode e (.mtcrweird bf ra m fmsk fmap)).toNat =
      e.mtcrweird.opcode.po.toNat * 2 ^ 26 + ra.val * 2 ^ 21 + m.toNat * 2 ^ 20 + fmsk.toNat * 2 ^ 16 +
        bf.val * 2 ^ 13 + e.mtcrweird.opcode.xoHi.toNat * 2 ^ 10 + fmap.toNat * 2 ^ 6 +
        e.mtcrweird.opcode.xoLo.toNat * 2 + e.mtcrweird.b31.toNat) ∧
    (∀ bf bfa m fmsk fmap, (encode e (.mcrfm bf bfa m fmsk fmap)).toNat =
      e.mcrfm.opcode.po.toNat * 2 ^ 26 + bf.val * 4 * 2 ^ 21 + m.toNat * 2 ^ 20 + fmsk.toNat * 2 ^ 16 +
        bfa.val * 2 ^ 13 + e.mcrfm.opcode.xoHi.toNat * 2 ^ 10 + fmap.toNat * 2 ^ 6 +
        e.mcrfm.opcode.xoLo.toNat * 2 + e.mcrfm.b31.toNat) ∧
    (∀ bt bfa m fmsk fmap, (encode e (.crweirder bt bfa m fmsk fmap)).toNat =
      e.crweirder.opcode.po.toNat * 2 ^ 26 + bt.val * 2 ^ 21 + m.toNat * 2 ^ 20 + fmsk.toNat * 2 ^ 16 +
        bfa.val * 2 ^ 13 + e.crweirder.opcode.xoHi.toNat * 2 ^ 10 + fmap.toNat * 2 ^ 6 +
        e.crweirder.opcode.xoLo.toNat * 2 + e.crweirder.b31.toNat)

/-- The pseudo-ops have the words of their expansions (41_gpr_to_cr.md R96, R97, R98): RA 0; for mtcri M 0, fmsk 15
and the complement of fmap; for mtcrset M 1 and fmap 0; for mtcrclr M 1 and fmap 15. That they have a constructor is the
model's choice (notes/assumptions/23.md). -/
def Obligations.PseudoOpWordsAreTheirExpansions : Prop :=
  ∀ (e : Enc) (bf : FieldNum) (v : Nibble),
    (∃ u : Nibble, u.toNat = 15 - v.toNat ∧ encode e (.mtcri bf v) = encode e (.mtcrweird bf 0 false 15 u)) ∧
    encode e (.mtcrset bf v) = encode e (.mtcrweird bf 0 true v 0) ∧
    encode e (.mtcrclr bf v) = encode e (.mtcrweird bf 0 true v 15)

/-- Under an admissible ENC no word matches two of the six instructions, and no word decodes ambiguously
(R58, R67; the assumption on ENC is the spec's decision D7). -/
def Obligations.AtMostOneInstructionMatches : Prop :=
  ∀ e : Enc, e.Admissible → ∀ w : InstrWord,
    (∀ op op', WordMatches e op w → WordMatches e op' w → op = op') ∧ decode e w ≠ .ambiguous

/-- A word is illegal exactly when it matches none of the six, in the bit positions of R67 (R61, R67; the spec's
decisions D8 and D16, notes/assumptions/10.md and 11.md). -/
def Obligations.IllegalExactlyWhenNoInstructionMatches : Prop :=
  ∀ (e : Enc) (w : InstrWord), decode e w = .illegal ↔ ∀ op, ¬ WordMatches e op w

/-- Under an admissible ENC a word is refused exactly when it matches mfcrrweird with bit 11 set or mcrfm with bit 9 or
10 set (R60, R67; the refusal is the spec's decision, notes/assumptions/9.md). -/
def Obligations.ReservedExactlyWhenAReservedBitIsSet : Prop :=
  ∀ e : Enc, e.Admissible → ∀ (w : InstrWord) (op : Op),
    decode e w = .reserved op ↔ WordMatches e op w ∧ ReservedBitSet op w

/-- Some words written out from R59's table decode to what they stand for, under ENC_EX (95_test_vectors.md V9). The
opcode values are the spec's invention for tests (notes/assumptions/1.md). -/
def Obligations.SampleWordsDecodeUnderEncEx : Prop :=
  decode Config.encEx 0b000101_00101_0_0011_010_000_0011_00001_0 = .instr (.crrweird 5 2 false 0b0011 0b0011) ∧
  decode Config.encEx 0b000101_00101_1_0001_000_000_0001_00001_1 = .instr (.crrweirdRc 5 0 true 0b0001 0b0001) ∧
  decode Config.encEx 0b000101_00110_0_1111_101_001_1111_00001_0 = .instr (.mfcrrweird 6 5 0b1111 0b1111) ∧
  decode Config.encEx 0b000101_00100_1_1100_110_010_1111_00001_0 = .instr (.mtcrrweird 6 4 true 0b1100 0b1111) ∧
  decode Config.encEx 0b000101_000_00_1_1100_111_100_0011_00001_0 = .instr (.mcrfm 0 7 true 0b1100 0b0011) ∧
  decode Config.encEx 0b000101_01001_0_0011_010_101_0011_00001_0 = .instr (.crweirder 9 2 false 0b0011 0b0011) ∧
  decode Config.encEx 0b000101_00110_1_1111_101_001_1111_00001_0 = .reserved .mfcrrweird ∧
  decode Config.encEx 0b000101_00000_0_0000_000_110_0000_00001_0 = .illegal

/-- A line of assembly is an error exactly when an operand is missing, is one too many, or is outside its range
(30_encoding.md R55, R65; the spec's decision D29, notes/assumptions/27.md). -/
def Obligations.AssemblyErrorExactlyWhenIllFormed : Prop :=
  ∀ l : AsmLine, l.assemble = none ↔
    l.operands.length ≠ l.mnemonic.operands.length ∨
      ∃ (n : Nat) (k : OperandKind) (v : Nat), l.mnemonic.operands[n]? = some k ∧ l.operands[n]? = some v ∧ k.bound ≤ v

/-! The Condition Register. -/

/-- CRF(k) and CRBIT(b) by the arithmetic of 00_scope.md R7, and what their writes leave: a write of field k changes
field k to v and no other field, a write of bit b changes bit b and no other bit. -/
def Obligations.CrFieldsAndBitsFollowTheNumbering : Prop :=
  (∀ (cr : CrWord) (k : FieldNum), (crfOf cr k).toNat = cr.toNat / 2 ^ (28 - 4 * k.val) % 16) ∧
  (∀ (cr : CrWord) (b : CrBitNum), (crBitOf cr b).toNat = cr.toNat / 2 ^ (31 - b.val) % 2) ∧
  (∀ (cr : CrWord) (k k' : FieldNum) (v : Nibble), crfOf (crfPut cr k v) k' = if k' = k then v else crfOf cr k') ∧
  (∀ (cr : CrWord) (b b' : CrBitNum) (v : Bool), crBitOf (crBitPut cr b v) b' = if b' = b then v else crBitOf cr b')

/-- CR is its eight fields, the first in the most significant place; CR bit 32+b lies in field b div 4, at position b mod 4
from the field's first bit; and the operand BT of crweirder selects that one bit: every other bit of its field and every
other field stay (10_state.md R22). -/
def Obligations.CrIsEightFieldsAndBtLiesInOne : Prop :=
  (∀ cr : CrWord, cr.toNat = (crfOf cr 0).toNat * 2 ^ 28 + (crfOf cr 1).toNat * 2 ^ 24 + (crfOf cr 2).toNat * 2 ^ 20 +
    (crfOf cr 3).toNat * 2 ^ 16 + (crfOf cr 4).toNat * 2 ^ 12 + (crfOf cr 5).toNat * 2 ^ 8 +
    (crfOf cr 6).toNat * 2 ^ 4 + (crfOf cr 7).toNat) ∧
  (∀ (cr : CrWord) (b : CrBitNum) (k : FieldNum), k.val = b.val / 4 →
    crBitOf cr b = (crfOf cr k).getLsbD (3 - b.val % 4)) ∧
  (∀ (bt : CrBitNum) (bfa : FieldNum) (m : Bool) (fmsk fmap : Nibble) (s t : State),
    exec (.crweirder bt bfa m fmsk fmap) s = .next t →
      ∀ (k : FieldNum) (q : Nat), q < 4 → ¬ (k.val = bt.val / 4 ∧ q = bt.val % 4) →
        (t.crf k).getLsbD (3 - q) = (s.crf k).getLsbD (3 - q))

/-- analyse(v) is LT, GT, EQ of the signed comparison with zero, and SO (00_scope.md R13, which the spec takes from
general knowledge: notes/assumptions/6.md). -/
def Obligations.AnalyseComparesWithZero : Prop :=
  ∀ (v : Word) (so : Bool),
    ((analyse v so).getLsbD 3 = true ↔ v.toInt < 0) ∧ ((analyse v so).getLsbD 2 = true ↔ 0 < v.toInt) ∧
    ((analyse v so).getLsbD 1 = true ↔ v = 0) ∧ (analyse v so).getLsbD 0 = so

/-! What each instruction does. In each: it completes at every pc but 2^64 - 4, the value it writes, and its frame. That
pc advances by 4 and is refused at 2^64 - 4 is 10_state.md R26, the spec's own rule (notes/assumptions/13.md). -/

/-- `crrweird` (40_cr_to_gpr.md R80): x[RT] becomes 1 or 0 by the test; CR and every other register stay. That pc advances
by 4 is 10_state.md R26, which the spec marks as its own (PRESUMED, notes/assumptions/13.md). -/
def Obligations.CrrweirdWritesTheTest : Prop :=
  ∀ (rt : GprNum) (bfa : FieldNum) (m : Bool) (fmsk fmap : Nibble) (s : State), s.pc ≠ topPc →
    ∃ t, exec (.crrweird rt bfa m fmsk fmap) s = .next t ∧
      ((TestHolds m (s.crf bfa) fmsk fmap ∧ t.gpr rt = 1) ∨ (¬ TestHolds m (s.crf bfa) fmsk fmap ∧ t.gpr rt = 0)) ∧
      (∀ i, i ≠ rt → t.gpr i = s.gpr i) ∧ t.cr = s.cr ∧ t.pc = s.pc + 4 ∧ s.SameOutside t

/-- `crrweird.` (40_cr_to_gpr.md R81): as crrweird, and field 0 becomes 4 + XER_SO when the result is 1, 2 + XER_SO
when it is 0, also when BFA is 0. The record value rests on 00_scope.md R13 (notes/assumptions/6.md). -/
def Obligations.CrrweirdRcWritesTheTestAndRecords : Prop :=
  ∀ (rt : GprNum) (bfa : FieldNum) (m : Bool) (fmsk fmap : Nibble) (s : State), s.pc ≠ topPc →
    ∃ t, exec (.crrweirdRc rt bfa m fmsk fmap) s = .next t ∧
      ((TestHolds m (s.crf bfa) fmsk fmap ∧ t.gpr rt = 1 ∧ (t.crf 0).toNat = 4 + s.xerSo.toNat) ∨
        (¬ TestHolds m (s.crf bfa) fmsk fmap ∧ t.gpr rt = 0 ∧ (t.crf 0).toNat = 2 + s.xerSo.toNat)) ∧
      (∀ i, i ≠ rt → t.gpr i = s.gpr i) ∧ (∀ k, k ≠ 0 → t.crf k = s.crf k) ∧ t.pc = s.pc + 4 ∧ s.SameOutside t

/-- `mfcrrweird` (40_cr_to_gpr.md R83): bit j of x[RT] is the match of bit j of field BFA for j below 4, 0 above. That pc
advances by 4 is 10_state.md R26, which the spec marks as its own (PRESUMED, notes/assumptions/13.md). -/
def Obligations.MfcrrweirdWritesTheMatchBits : Prop :=
  ∀ (rt : GprNum) (bfa : FieldNum) (fmsk fmap : Nibble) (s : State), s.pc ≠ topPc →
    ∃ t, exec (.mfcrrweird rt bfa fmsk fmap) s = .next t ∧
      (∀ j, (t.gpr rt).getLsbD j = (decide (j < 4) && matchBit (s.crf bfa) fmsk fmap j)) ∧
      (∀ i, i ≠ rt → t.gpr i = s.gpr i) ∧ t.cr = s.cr ∧ t.pc = s.pc + 4 ∧ s.SameOutside t

/-- `mfcrrweird.` (40_cr_to_gpr.md R84): as mfcrrweird, and field 0 becomes 4 + XER_SO when the result is not 0,
2 + XER_SO when it is 0, also when BFA is 0. The record value rests on 00_scope.md R13 (notes/assumptions/6.md). -/
def Obligations.MfcrrweirdRcWritesTheMatchBitsAndRecords : Prop :=
  ∀ (rt : GprNum) (bfa : FieldNum) (fmsk fmap : Nibble) (s : State), s.pc ≠ topPc →
    ∃ t, exec (.mfcrrweirdRc rt bfa fmsk fmap) s = .next t ∧
      (∀ j, (t.gpr rt).getLsbD j = (decide (j < 4) && matchBit (s.crf bfa) fmsk fmap j)) ∧
      (t.crf 0).toNat = (if t.gpr rt = 0 then 2 else 4) + s.xerSo.toNat ∧
      (∀ i, i ≠ rt → t.gpr i = s.gpr i) ∧ (∀ k, k ≠ 0 → t.crf k = s.crf k) ∧ t.pc = s.pc + 4 ∧ s.SameOutside t

/-- `mtcrrweird` (41_gpr_to_cr.md R91): a selected bit of field BF becomes the match of the register's bit, an
unselected one keeps its value with M and becomes 0 without; the source is 0 when RA is 0. The last is 00_scope.md R11,
which the spec recovers from the page (DEDUCED, notes/assumptions/28.md); that pc advances by 4 is 10_state.md R26, the
spec's own (PRESUMED, notes/assumptions/13.md). -/
def Obligations.MtcrrweirdWritesTheField : Prop :=
  ∀ (bf : FieldNum) (ra : GprNum) (m : Bool) (fmsk fmap : Nibble) (s : State), s.pc ≠ topPc →
    ∃ t, exec (.mtcrrweird bf ra m fmsk fmap) s = .next t ∧
      (∀ j, j < 4 → (t.crf bf).getLsbD j =
        if fmsk.getLsbD j then ((!decide (ra = 0) && (s.gpr ra).getLsbD j) == fmap.getLsbD j)
        else m && (s.crf bf).getLsbD j) ∧
      (∀ k, k ≠ bf → t.crf k = s.crf k) ∧ t.x = s.x ∧ t.pc = s.pc + 4 ∧ s.SameOutside t

/-- `mtcrweird` (41_gpr_to_cr.md R92): as mtcrrweird, every selected bit compared with the register's one least
significant bit. That the source is 0 when RA is 0 is 00_scope.md R11, which the spec recovers from the page
(DEDUCED, notes/assumptions/28.md); that pc advances by 4 is 10_state.md R26, the spec's own (PRESUMED,
notes/assumptions/13.md). -/
def Obligations.MtcrweirdWritesTheField : Prop :=
  ∀ (bf : FieldNum) (ra : GprNum) (m : Bool) (fmsk fmap : Nibble) (s : State), s.pc ≠ topPc →
    ∃ t, exec (.mtcrweird bf ra m fmsk fmap) s = .next t ∧
      (∀ j, j < 4 → (t.crf bf).getLsbD j =
        if fmsk.getLsbD j then ((!decide (ra = 0) && (s.gpr ra).getLsbD 0) == fmap.getLsbD j)
        else m && (s.crf bf).getLsbD j) ∧
      (∀ k, k ≠ bf → t.crf k = s.crf k) ∧ t.x = s.x ∧ t.pc = s.pc + 4 ∧ s.SameOutside t

/-- `mcrfm` (42_cr_to_cr.md R100), by its per-bit table: a selected bit is the source's, an unselected one the old
target's with M and 0 without, and fmap inverts it in every case (without M too: the spec's decision D23,
notes/assumptions/7.md). -/
def Obligations.McrfmWritesTheField : Prop :=
  ∀ (bf bfa : FieldNum) (m : Bool) (fmsk fmap : Nibble) (s : State), s.pc ≠ topPc →
    ∃ t, exec (.mcrfm bf bfa m fmsk fmap) s = .next t ∧
      (∀ j, j < 4 → (t.crf bf).getLsbD j =
        ((if fmsk.getLsbD j then (s.crf bfa).getLsbD j else m && (s.crf bf).getLsbD j) != fmap.getLsbD j)) ∧
      (∀ k, k ≠ bf → t.crf k = s.crf k) ∧ t.x = s.x ∧ t.pc = s.pc + 4 ∧ s.SameOutside t

/-- `crweirder` (42_cr_to_cr.md R103): CR bit 32+BT becomes the test's answer; the other 31 bits and every register
stay. That pc advances by 4 is 10_state.md R26, which the spec marks as its own (PRESUMED, notes/assumptions/13.md). -/
def Obligations.CrweirderWritesTheBit : Prop :=
  ∀ (bt : CrBitNum) (bfa : FieldNum) (m : Bool) (fmsk fmap : Nibble) (s : State), s.pc ≠ topPc →
    ∃ t, exec (.crweirder bt bfa m fmsk fmap) s = .next t ∧
      (t.crBit bt = true ↔ TestHolds m (s.crf bfa) fmsk fmap) ∧
      (∀ b, b ≠ bt → t.crBit b = s.crBit b) ∧ t.x = s.x ∧ t.pc = s.pc + 4 ∧ s.SameOutside t

/-- `mtcri` (41_gpr_to_cr.md R96, whose effect the spec infers from R92): field BF becomes the immediate. -/
def Obligations.MtcriLoadsTheField : Prop :=
  ∀ (bf : FieldNum) (fmap : Nibble) (s : State), s.pc ≠ topPc →
    ∃ t, exec (.mtcri bf fmap) s = .next t ∧ t.crf bf = fmap ∧
      (∀ k, k ≠ bf → t.crf k = s.crf k) ∧ t.x = s.x ∧ t.pc = s.pc + 4 ∧ s.SameOutside t

/-- `mtcrset` (41_gpr_to_cr.md R97, inferred from R92): the bits fmsk selects become 1, the others stay. -/
def Obligations.MtcrsetSetsTheSelectedBits : Prop :=
  ∀ (bf : FieldNum) (fmsk : Nibble) (s : State), s.pc ≠ topPc →
    ∃ t, exec (.mtcrset bf fmsk) s = .next t ∧ t.crf bf = s.crf bf ||| fmsk ∧
      (∀ k, k ≠ bf → t.crf k = s.crf k) ∧ t.x = s.x ∧ t.pc = s.pc + 4 ∧ s.SameOutside t

/-- `mtcrclr` (41_gpr_to_cr.md R98, inferred from R92): the bits fmsk selects become 0, the others stay. -/
def Obligations.MtcrclrClearsTheSelectedBits : Prop :=
  ∀ (bf : FieldNum) (fmsk : Nibble) (s : State), s.pc ≠ topPc →
    ∃ t, exec (.mtcrclr bf fmsk) s = .next t ∧ t.crf bf = s.crf bf &&& ~~~fmsk ∧
      (∀ k, k ≠ bf → t.crf k = s.crf k) ∧ t.x = s.x ∧ t.pc = s.pc + 4 ∧ s.SameOutside t

/-! Relations between instructions. -/

/-- Every pseudo-op does what its expansion does, in every state (30_encoding.md R66, 41_gpr_to_cr.md R96 to R98;
notes/assumptions/23.md). -/
def Obligations.PseudoOpsRunAsTheirExpansions : Prop :=
  ∀ (i : Instr) (s : State), exec i s = exec (coreOf i) s

/-- On the same CR, crrweird's answer is the reduction of mfcrrweird's result: "not zero" with M, "equal to fmsk"
without (40_cr_to_gpr.md R85). -/
def Obligations.CrrweirdReducesMfcrrweird : Prop :=
  ∀ (rt rt' : GprNum) (bfa : FieldNum) (m : Bool) (fmsk fmap : Nibble) (s s' : State),
    s.pc ≠ topPc → s'.pc ≠ topPc → s.cr = s'.cr →
    ∃ t t', exec (.crrweird rt bfa m fmsk fmap) s = .next t ∧ exec (.mfcrrweird rt' bfa fmsk fmap) s' = .next t' ∧
      (t.gpr rt = 1 ↔ if m then t'.gpr rt' ≠ 0 else (t'.gpr rt').toNat = fmsk.toNat)

/-- crweirder puts into its bit what crrweird puts into its register (42_cr_to_cr.md R103). -/
def Obligations.CrweirderAgreesWithCrrweird : Prop :=
  ∀ (rt : GprNum) (bt : CrBitNum) (bfa : FieldNum) (m : Bool) (fmsk fmap : Nibble) (s s' : State),
    s.pc ≠ topPc → s'.pc ≠ topPc → s.cr = s'.cr →
    ∃ t t', exec (.crrweird rt bfa m fmsk fmap) s = .next t ∧ exec (.crweirder bt bfa m fmsk fmap) s' = .next t' ∧
      (t'.crBit bt).toNat = (t.gpr rt).toNat

/-- With fmsk 0b1111 M is irrelevant to mtcrrweird, mtcrweird and mcrfm: the same outcome, whatever the state
(41_gpr_to_cr.md R91, R92, corner cases; for mcrfm the per-bit table of 42_cr_to_cr.md R100). For mcrfm with fmap not 0
it rests on fmap being applied whatever M is, the spec's decision D23 (DEDUCED, notes/assumptions/7.md). -/
def Obligations.FullMaskMakesModeIrrelevant : Prop :=
  ∀ (bf bfa : FieldNum) (ra : GprNum) (fmap : Nibble) (s : State),
    exec (.mtcrrweird bf ra true 0b1111 fmap) s = exec (.mtcrrweird bf ra false 0b1111 fmap) s ∧
    exec (.mtcrweird bf ra true 0b1111 fmap) s = exec (.mtcrweird bf ra false 0b1111 fmap) s ∧
    exec (.mcrfm bf bfa true 0b1111 fmap) s = exec (.mcrfm bf bfa false 0b1111 fmap) s

/-- With fmsk 0, mtcrrweird and mtcrweird clear the field without M and leave CR with M; mcrfm loads the immediate
fmap without M, whatever BFA is (41_gpr_to_cr.md R91, R92, 42_cr_to_cr.md R100, corner cases). The mcrfm clause rests on
fmap being applied whatever M is, the spec's decision D23 (DEDUCED, notes/assumptions/7.md). -/
def Obligations.EmptyMaskClearsOrKeeps : Prop :=
  ∀ (bf bfa : FieldNum) (ra : GprNum) (fmap : Nibble) (s : State), s.pc ≠ topPc →
    (∃ t, exec (.mtcrrweird bf ra false 0 fmap) s = .next t ∧ t.crf bf = 0) ∧
    (∃ t, exec (.mtcrrweird bf ra true 0 fmap) s = .next t ∧ t.cr = s.cr) ∧
    (∃ t, exec (.mtcrweird bf ra false 0 fmap) s = .next t ∧ t.crf bf = 0) ∧
    (∃ t, exec (.mtcrweird bf ra true 0 fmap) s = .next t ∧ t.cr = s.cr) ∧
    (∃ t, exec (.mcrfm bf bfa false 0 fmap) s = .next t ∧ t.crf bf = fmap)

/-- crrweird with fmsk 0 loads 0 with M and 1 without, into any register, whatever CR and fmap hold
(70_reset_and_hazards.md R152, 40_cr_to_gpr.md R80). -/
def Obligations.EmptyMaskLoadsAConstant : Prop :=
  ∀ (rt : GprNum) (bfa : FieldNum) (fmap : Nibble) (s : State), s.pc ≠ topPc →
    (∃ t, exec (.crrweird rt bfa true 0 fmap) s = .next t ∧ t.gpr rt = 0) ∧
    (∃ t, exec (.crrweird rt bfa false 0 fmap) s = .next t ∧ t.gpr rt = 1)

/-- Moving a field to a register and from there to another field copies it, unless the register is x[0], which
(RA|0) does not read: then the target becomes 0 (R83, R91, 10_state.md R20). The case of x[0] is 00_scope.md R11, which
the spec recovers from the page (DEDUCED, notes/assumptions/28.md). -/
def Obligations.FieldTravelsThroughARegister : Prop :=
  ∀ (r : GprNum) (k k' : FieldNum) (m : Bool) (s : State), s.pc ≠ topPc → s.pc + 4 ≠ topPc →
    ∃ t u, exec (.mfcrrweird r k 0b1111 0b1111) s = .next t ∧ exec (.mtcrrweird k' r m 0b1111 0b1111) t = .next u ∧
      u.crf k' = if r = 0 then 0 else s.crf k

/-- Inverting bits of a field in place twice leaves CR as it was (42_cr_to_cr.md R100, corner cases). -/
def Obligations.InvertingTwiceRestores : Prop :=
  ∀ (k : FieldNum) (fmap : Nibble) (s : State), s.pc ≠ topPc → s.pc + 4 ≠ topPc →
    ∃ t u, exec (.mcrfm k k true 0b0000 fmap) s = .next t ∧ exec (.mcrfm k k true 0b0000 fmap) t = .next u ∧
      u.cr = s.cr ∧ u.x = s.x

/-- With RA 0 the registers play no part: mtcrrweird, mtcrweird and the three pseudo-ops leave the same CR whatever
x holds (41_gpr_to_cr.md R96 to R98). For the first two it is 00_scope.md R11, which the spec recovers from the page and
marks as its inference (DEDUCED, notes/assumptions/28.md). -/
def Obligations.RaZeroReadsNoRegister : Prop :=
  ∀ (bf : FieldNum) (m : Bool) (fmsk fmap : Nibble) (s : State) (v : Vector Word 32), s.pc ≠ topPc →
    ∀ i ∈ [Instr.mtcrrweird bf 0 m fmsk fmap, .mtcrweird bf 0 m fmsk fmap, .mtcri bf fmap, .mtcrset bf fmsk,
      .mtcrclr bf fmsk], ∃ t t', exec i s = .next t ∧ exec i { s with x := v } = .next t' ∧ t'.cr = t.cr

/-- With M=0 the new CR depends on the old CR only outside field BF (41_gpr_to_cr.md R93); the same for mcrfm when
its source is another field (70_reset_and_hazards.md R155). -/
def Obligations.OverwriteDoesNotReadTheTarget : Prop :=
  ∀ (bf bfa : FieldNum) (ra : GprNum) (fmsk fmap : Nibble) (s s' : State), s.pc ≠ topPc → s'.pc ≠ topPc →
    s.x = s'.x → (∀ k, k ≠ bf → s.crf k = s'.crf k) →
    (∃ t t', exec (.mtcrrweird bf ra false fmsk fmap) s = .next t ∧
      exec (.mtcrrweird bf ra false fmsk fmap) s' = .next t' ∧ t.cr = t'.cr) ∧
    (∃ t t', exec (.mtcrweird bf ra false fmsk fmap) s = .next t ∧
      exec (.mtcrweird bf ra false fmsk fmap) s' = .next t' ∧ t.cr = t'.cr) ∧
    (bfa ≠ bf → ∃ t t', exec (.mcrfm bf bfa false fmsk fmap) s = .next t ∧
      exec (.mcrfm bf bfa false fmsk fmap) s' = .next t' ∧ t.cr = t'.cr)

/-- What each instruction writes of CR and what of CR it reads, row by row of the table of 10_state.md R23; no other flag
is written. Reads: two runs from states with the same registers and XER_SO that agree on the part of CR the row reads
write the same. Field 0 of the recording forms is analyse(x[RT]) with XER_SO of the state: 00_scope.md R13 and
10_state.md R24, which the spec takes from general knowledge (PRESUMED, notes/assumptions/6.md). -/
def Obligations.CrIsSetAndReadByItsTable : Prop :=
  (∀ (i : Instr) (s t : State), exec i s = .next t → t.xerSo = s.xerSo) ∧
  (∀ (s t s' t' : State) (rt : GprNum) (bfa : FieldNum) (m : Bool) (fmsk fmap : Nibble),
    s.x = s'.x → s.xerSo = s'.xerSo → s.crf bfa = s'.crf bfa →
    (exec (.crrweird rt bfa m fmsk fmap) s = .next t → exec (.crrweird rt bfa m fmsk fmap) s' = .next t' →
      t.cr = s.cr ∧ t.x = t'.x) ∧
    (exec (.crrweirdRc rt bfa m fmsk fmap) s = .next t → exec (.crrweirdRc rt bfa m fmsk fmap) s' = .next t' →
      t.crf 0 = analyse (t.gpr rt) s.xerSo ∧ (∀ k, k ≠ 0 → t.crf k = s.crf k) ∧ t.x = t'.x ∧ t.crf 0 = t'.crf 0) ∧
    (exec (.mfcrrweird rt bfa fmsk fmap) s = .next t → exec (.mfcrrweird rt bfa fmsk fmap) s' = .next t' →
      t.cr = s.cr ∧ t.x = t'.x) ∧
    (exec (.mfcrrweirdRc rt bfa fmsk fmap) s = .next t → exec (.mfcrrweirdRc rt bfa fmsk fmap) s' = .next t' →
      t.crf 0 = analyse (t.gpr rt) s.xerSo ∧ (∀ k, k ≠ 0 → t.crf k = s.crf k) ∧ t.x = t'.x ∧ t.crf 0 = t'.crf 0)) ∧
  (∀ (s t s' t' : State) (bf : FieldNum) (ra : GprNum) (m : Bool) (fmsk fmap : Nibble),
    s.x = s'.x → (m = true → s.crf bf = s'.crf bf) →
    (exec (.mtcrrweird bf ra m fmsk fmap) s = .next t → exec (.mtcrrweird bf ra m fmsk fmap) s' = .next t' →
      (∀ k, k ≠ bf → t.crf k = s.crf k) ∧ t.crf bf = t'.crf bf) ∧
    (exec (.mtcrweird bf ra m fmsk fmap) s = .next t → exec (.mtcrweird bf ra m fmsk fmap) s' = .next t' →
      (∀ k, k ≠ bf → t.crf k = s.crf k) ∧ t.crf bf = t'.crf bf)) ∧
  (∀ (s t s' t' : State) (bf bfa : FieldNum) (m : Bool) (fmsk fmap : Nibble),
    s.crf bfa = s'.crf bfa → (m = true → s.crf bf = s'.crf bf) →
    exec (.mcrfm bf bfa m fmsk fmap) s = .next t → exec (.mcrfm bf bfa m fmsk fmap) s' = .next t' →
      (∀ k, k ≠ bf → t.crf k = s.crf k) ∧ t.crf bf = t'.crf bf) ∧
  (∀ (s t s' t' : State) (bt : CrBitNum) (bfa : FieldNum) (m : Bool) (fmsk fmap : Nibble),
    s.crf bfa = s'.crf bfa →
    exec (.crweirder bt bfa m fmsk fmap) s = .next t → exec (.crweirder bt bfa m fmsk fmap) s' = .next t' →
      (∀ b, b ≠ bt → t.crBit b = s.crBit b) ∧ t.crBit bt = t'.crBit bt)

/-- mtcrrweird and mtcrweird differ only in the four bits they take from the source: where the source's four least
significant bits all equal the other's one least significant bit, they leave the same field BF; and in both M decides what
becomes of the bits fmsk does not select, 0 or their old values. Their words have the same operand fields
(41_gpr_to_cr.md R90). The source is (RA|0), which is 0 when RA is 0: 00_scope.md R11, which the spec recovers from the
page (DEDUCED, notes/assumptions/28.md). -/
def Obligations.MtcrweirdRepeatsTheLowBit : Prop :=
  (∀ (e : Enc) (bf : FieldNum) (ra : GprNum) (m : Bool) (fmsk fmap : Nibble) (v w : WordFields),
    fieldsOfWord (encode e (.mtcrrweird bf ra m fmsk fmap)) = v →
    fieldsOfWord (encode e (.mtcrweird bf ra m fmsk fmap)) = w →
    v.f6 = w.f6 ∧ v.m = w.m ∧ v.fmsk = w.fmsk ∧ v.f16 = w.f16 ∧ v.fmap = w.fmap) ∧
  ∀ (bf : FieldNum) (ra ra' : GprNum) (m : Bool) (fmsk fmap : Nibble) (s t s' t' : State),
    exec (.mtcrrweird bf ra m fmsk fmap) s = .next t → exec (.mtcrweird bf ra' m fmsk fmap) s' = .next t' →
    (s.crf bf = s'.crf bf → (∀ j, j < 4 → (s.ra0 ra).getLsbD j = (s'.ra0 ra').getLsbD 0) → t.crf bf = t'.crf bf) ∧
    (∀ j, j < 4 → fmsk.getLsbD j = false →
      (t.crf bf).getLsbD j = (m && (s.crf bf).getLsbD j) ∧ (t'.crf bf).getLsbD j = (m && (s'.crf bf).getLsbD j))

/-! Whole-machine rules. -/

/-- No instruction raises anything: at every pc but 2^64 - 4, for every operand and every state, each answers a next
state with pc + 4; at pc = 2^64 - 4 every instruction is refused rather than wrapped (60_exceptions.md R131,
10_state.md R26; the spec's decisions D17 and D12, PRESUMED, notes/assumptions/13.md). -/
def Obligations.NoInstructionRaises : Prop :=
  (∀ (i : Instr) (s : State), s.pc ≠ topPc → ∃ t, exec i s = .next t ∧ t.pc = s.pc + 4) ∧
  (∀ (i : Instr) (s : State), s.pc.toNat = 2 ^ 64 - 4 → exec i s = .refused .pcWrap)

/-- The predicate-mask registers x[3], x[10] and x[31] are ordinary registers (10_state.md R21): exchange one of them with
any register but x[0], in the operands and in the state, and the instruction answers the exchanged next state. Of x[0] it
says nothing, and so it holds whatever (RA|0) with RA 0 is. -/
def Obligations.MaskRegistersAreOrdinary : Prop :=
  ∀ r r' : GprNum, r = 3 ∨ r = 10 ∨ r = 31 → r' ≠ 0 → ∀ (i : Instr) (s t : State),
    exec i s = .next t → exec (renameGprs r r' i) (s.swapGprs r r') = .next (t.swapGprs r r')

/-- What an instruction reads is inside its row of 10_state.md R30 and 70_reset_and_hazards.md R155: two states that
agree there are left agreeing on everything it writes (notes/assumptions/31.md). -/
def Obligations.OutcomeDependsOnlyOnWhatIsRead : Prop :=
  ∀ (i : Instr) (s s' : State), s.pc ≠ topPc → s'.pc ≠ topPc → State.AgreeOn (readsOf i) s s' →
    ∃ t t', exec i s = .next t ∧ exec i s' = .next t' ∧ State.AgreeOn (writesOf i) t t'

/-- What an instruction changes is inside its row of 10_state.md R23, R30: every other register and CR field, XER_SO,
ENC, BASE_ISA, the byte order and every byte of the instruction space stay. -/
def Obligations.InstructionChangesOnlyWhatItWrites : Prop :=
  ∀ (i : Instr) (s t : State), exec i s = .next t →
    (∀ l, l ∉ writesOf i → t.at l = s.at l) ∧ s.SameOutside t

/-- A step runs the instruction that the word at pc decodes to, and adds nothing to it (20_memory.md R41,
30_encoding.md R67). -/
def Obligations.StepRunsTheDecodedInstruction : Prop :=
  ∀ (s : State) (w : InstrWord) (i : Instr), s.pc.toNat % 4 = 0 → s.fetch = some w → decode s.enc w = .instr i →
    step s = exec i s

/-- The word held at an address is the one its four bytes make: with `big` the byte at the lowest address is instruction
bits 0 to 7, with `little` it is bits 24 to 31 (20_memory.md R41, the spec's decision D13). -/
def Obligations.WordsLieInTheirByteOrder : Prop :=
  ∀ (m : List Host.Cell) (en : Endian) (a : Nat) (w : InstrWord), memWord m en a = some w ↔ BytesAreWord m en a w

/-- A step at an aligned pc faults with IllegalInstruction(w) exactly when the word there is `w` and matches none of
the six instructions (60_exceptions.md R130, 30_encoding.md R61; notes/assumptions/10.md). Under the assumption on ENC the
words of BASE_ISA are such words: the model holds no instruction of BASE_ISA (30_encoding.md R58; the spec's decisions D1
and D16, notes/assumptions/24.md). -/
def Obligations.IllegalInstructionExactlyAtUnmatchedWords : Prop :=
  (∀ (s : State) (w : InstrWord), s.pc.toNat % 4 = 0 →
    (step s = .fault (.illegalInstruction w) ↔ s.fetch = some w ∧ ∀ op, ¬ WordMatches s.enc op w)) ∧
  (∀ (s : State) (w : InstrWord), s.Inv → s.fetch = some w → s.baseIsa.has w = true →
    step s = .fault (.illegalInstruction w))

/-- Under an admissible ENC a step at an aligned pc is refused for reserved bits exactly when the word there matches an
instruction and has a reserved bit of it set (30_encoding.md R60; notes/assumptions/9.md). -/
def Obligations.ReservedBitsRefuseTheStep : Prop :=
  ∀ (s : State) (op : Op) (w : InstrWord), s.pc.toNat % 4 = 0 → s.enc.Admissible →
    (step s = .refused (.reservedBits op w) ↔ s.fetch = some w ∧ WordMatches s.enc op w ∧ ReservedBitSet op w)

/-- Where the program holds no word at an aligned pc, the run has ended if pc is 4 past the highest address at which
the program holds a word, and is stuck otherwise (70_reset_and_hazards.md R153, 20_memory.md R41). That an end is a fault
of the step, and where it comes before being stuck, are the model's choice (notes/assumptions/15.md and 16.md). -/
def Obligations.NoWordEndsTheRunOrSticks : Prop :=
  ∀ s : State, s.Inv → s.fetch = none →
    ((∃ a, a % 4 = 0 ∧ a + 4 = s.pc.toNat ∧ (memWord s.mem s.ifetchEndian a).isSome ∧
        ∀ a', a' % 4 = 0 → (memWord s.mem s.ifetchEndian a').isSome → a' ≤ a) →
      step s = .fault (.endOfProgram s.pc)) ∧
    ((¬ ∃ a, a % 4 = 0 ∧ a + 4 = s.pc.toNat ∧ (memWord s.mem s.ifetchEndian a).isSome ∧
        ∀ a', a' % 4 = 0 → (memWord s.mem s.ifetchEndian a').isSome → a' ≤ a) →
      step s = .fault (.stuck s.pc))

/-- A misaligned pc is refused (20_memory.md R43; the step's refusal is the model's, notes/assumptions/14.md). -/
def Obligations.MisalignedPcIsRefused : Prop :=
  ∀ s : State, s.pc.toNat % 4 ≠ 0 → step s = .refused (.misalignedPc s.pc)

/-- No step writes XER_SO, the program, ENC, BASE_ISA or the byte order (10_state.md R24, R30, 20_memory.md R48). -/
def Obligations.StepKeepsProgramAndXerSo : Prop :=
  ∀ s t : State, step s = .next t →
    t.xerSo = s.xerSo ∧ t.mem = s.mem ∧ t.enc = s.enc ∧ t.baseIsa = s.baseIsa ∧ t.ifetchEndian = s.ifetchEndian

/-- The invariant (pc aligned, instruction space canonical, ENC meeting its two assumptions) holds of the next state of
every step from every state that has it (20_memory.md R43, R41, 30_encoding.md R58). -/
def Obligations.EveryStepKeepsTheInvariant : Prop :=
  ∀ s t : State, s.Inv → step s = .next t → t.Inv

/-- The invariant holds of the reset state. The values there are the model's choice (notes/assumptions/1.md to
5.md, 24.md). -/
def Obligations.ResetHasTheInvariant : Prop :=
  State.reset.Inv

/-! Launch and runs. -/

/-- A launch gives its registers, CR, XER_SO, ENC, BASE_ISA and byte order, pc = ENTRY, and an instruction space that
holds, at every aligned address, the word the program gives there and no other, its bytes in the byte order
(70_reset_and_hazards.md R151, 20_memory.md R41; the form of the launch is the model's, notes/assumptions/2.md and 26.md). -/
def Obligations.LaunchHoldsTheProgram : Prop :=
  ∀ (p : LaunchParams) (s : State), launch p = .next s →
    s.x = p.x ∧ s.cr = p.cr ∧ s.xerSo = p.xerSo ∧ s.enc = p.enc ∧ s.baseIsa = p.baseIsa ∧
    s.ifetchEndian = p.ifetchEndian ∧ s.pc = p.entry ∧
    (∀ (a : Nat) (w : InstrWord), a % 4 = 0 →
      (memWord s.mem s.ifetchEndian a = some w ↔ ∃ b, (b, w) ∈ p.program ∧ b.toNat = a)) ∧
    (∀ c ∈ p.program, BytesAreWord s.mem p.ifetchEndian c.1.toNat c.2)

/-- A launch whose ENC is admissible and matches no word of its BASE_ISA, whose program is a map from aligned addresses,
and whose ENTRY is one of them, gives a state; every state a launch gives has the invariant; a misaligned ENTRY is
refused (70_reset_and_hazards.md R151, 20_memory.md R43;
notes/assumptions/26.md). -/
def Obligations.LaunchStartsOrRefuses : Prop :=
  ∀ p : LaunchParams,
    (p.enc.Admissible → BaseDisjoint p.enc p.baseIsa → (∀ c ∈ p.program, c.1.toNat % 4 = 0) →
      (p.program.map Prod.fst).Nodup → (∃ w, (p.entry, w) ∈ p.program) → ∃ s, launch p = .next s) ∧
    (∀ s, launch p = .next s → s.Inv) ∧
    (p.entry.toNat % 4 ≠ 0 → launch p = .refused .launchMisalignedEntry)

/-- A run of n steps from any state moves pc by 4n: no instruction branches and none wraps
(70_reset_and_hazards.md R153, 10_state.md R26). That a step is 4 bytes and never wraps is the spec's own, its decision
D12 (PRESUMED, notes/assumptions/13.md). -/
def Obligations.RunMovesPcByFourPerStep : Prop :=
  ∀ (n : Nat) (s t : State), Sys2Proof.core.run n s = .next t → t.pc.toNat = s.pc.toNat + 4 * n

/-- n contiguous words from pc that decode to instructions run in exactly n steps; if they are the program's last
words, the run then ends normally (70_reset_and_hazards.md R153, the spec's decision D21; notes/assumptions/15.md). -/
def Obligations.StraightLineProgramTakesNSteps : Prop :=
  ∀ (n : Nat) (s : State), s.Inv → s.pc.toNat + 4 * n < 2 ^ 64 → (∀ k, k < n → s.HoldsInstr k) →
    ∃ t, Sys2Proof.core.run n s = .next t ∧ t.pc.toNat = s.pc.toNat + 4 * n ∧ t.mem = s.mem ∧
      (programEnd s.mem = some (s.pc.toNat + 4 * n) → t.Ended)

/-! The prefixed loops (45_vectorized.md), as functions of their inputs: no step reaches them
(notes/assumptions/19.md and 20.md). -/

/-- sv.crrweird with a scalar RT inserts result i into bit i of x_SV[RT], for every element with mapreduce and for
element 0 alone without; every other bit, register and field stays (R113, R114 (a), the spec's decision D25). -/
def Obligations.SvCrrweirdScalarInsertsBits : Prop :=
  ∀ (rt bb n : Nat) (m : Bool) (fmsk fmap : Nibble) (c : SvContext) (a : SvArrays),
    c.rtElwidth = 0 → c.rtIsVec = false → n = (if c.mapreduce then c.vl else min c.vl 1) → n ≤ 64 →
    (0 < n → rt < a.x.length) → (∀ i, i < n → svSource c bb i < a.crf.length) →
    ∃ b, svExec (.crrweird rt bb m fmsk fmap) c a = .next b ∧ b.crf = a.crf ∧
      (∀ q, q ≠ rt → b.gpr q = a.gpr q) ∧
      (∀ i, i < n → ((b.gpr rt).getLsbD i = true ↔ TestHolds m (a.field (svSource c bb i)) fmsk fmap)) ∧
      (∀ j, n ≤ j → (b.gpr rt).getLsbD j = (a.gpr rt).getLsbD j)

/-- sv.crrweird with a vector RT packs 1, 2, 4 or 8 results to a register: result i is bit i mod k of register
RT + i div k, the bits above the packing group are 0, every other register stays. The positions of the last register
that no result reaches are left open, for every free value (R113, R114 (b); notes/assumptions/21.md). -/
def Obligations.SvCrrweirdVectorPacksBits : Prop :=
  ∀ (rt bb : Nat) (m : Bool) (fmsk fmap : Nibble) (c : SvContext) (a : SvArrays),
    c.rtElwidth = 0 → c.rtIsVec = true → (∀ i, i < c.vl → svSource c bb i < a.crf.length) →
    (∀ i, i < c.vl → rt + i / 2 ^ c.bbElwidth.toNat < a.x.length) →
    ∃ b, svExec (.crrweird rt bb m fmsk fmap) c a = .next b ∧ b.crf = a.crf ∧
      (∀ i, i < c.vl → ((b.gpr (rt + i / 2 ^ c.bbElwidth.toNat)).getLsbD (i % 2 ^ c.bbElwidth.toNat) = true ↔
        TestHolds m (a.field (svSource c bb i)) fmsk fmap)) ∧
      (∀ i j, i < c.vl → 2 ^ c.bbElwidth.toNat ≤ j →
        (b.gpr (rt + i / 2 ^ c.bbElwidth.toNat)).getLsbD j = false) ∧
      (∀ q, (∀ i, i < c.vl → q ≠ rt + i / 2 ^ c.bbElwidth.toNat) → b.gpr q = a.gpr q)

/-- sv.mfcrrweird with a scalar RT inserts the four match bits of element i into nibble i of x_SV[RT], for every element
with mapreduce and for element 0 alone without; every other bit, register and field stays (R116, the spec's decision
D24). -/
def Obligations.SvMfcrrweirdScalarInsertsNibbles : Prop :=
  ∀ (rt bb n : Nat) (fmsk fmap : Nibble) (c : SvContext) (a : SvArrays),
    c.rtElwidth = 0 → c.rtIsVec = false → n = (if c.mapreduce then c.vl else min c.vl 1) → n ≤ 16 →
    (0 < n → rt < a.x.length) → (∀ i, i < n → svSource c bb i < a.crf.length) →
    ∃ b, svExec (.mfcrrweird rt bb fmsk fmap) c a = .next b ∧ b.crf = a.crf ∧
      (∀ q, q ≠ rt → b.gpr q = a.gpr q) ∧
      (∀ j, (b.gpr rt).getLsbD j =
        if j / 4 < n then matchBit (a.field (svSource c bb (j / 4))) fmsk fmap (j % 4) else (a.gpr rt).getLsbD j)

/-- sv.mfcrrweird with a vector RT packs k = 1, 2, 4 or 8 four-bit results to a register: nibble p of register RT + q is
result q * k + p, and a register that receives a result is 0 in every bit that receives none; every other register
stays (R116, 90_conflicts.md C10; notes/assumptions/22.md). -/
def Obligations.SvMfcrrweirdVectorPacksNibbles : Prop :=
  ∀ (rt bb : Nat) (fmsk fmap : Nibble) (c : SvContext) (a : SvArrays),
    c.rtElwidth = 0 → c.rtIsVec = true → (∀ i, i < c.vl → svSource c bb i < a.crf.length) →
    (∀ i, i < c.vl → rt + i / 2 ^ c.bbElwidth.toNat < a.x.length) →
    ∃ b, svExec (.mfcrrweird rt bb fmsk fmap) c a = .next b ∧ b.crf = a.crf ∧
      (∀ q j, q * 2 ^ c.bbElwidth.toNat < c.vl → (b.gpr (rt + q)).getLsbD j =
        (decide (j / 4 < 2 ^ c.bbElwidth.toNat ∧ q * 2 ^ c.bbElwidth.toNat + j / 4 < c.vl) &&
          matchBit (a.field (svSource c bb (q * 2 ^ c.bbElwidth.toNat + j / 4))) fmsk fmap (j % 4))) ∧
      (∀ q, (∀ i, i < c.vl → q ≠ rt + i / 2 ^ c.bbElwidth.toNat) → b.gpr q = a.gpr q)

/-- On the arrays of a scalar state, element 0 of sv.crrweird with a scalar RT is the answer of crrweird, and bits 1 to 63
stay (10_state.md R31, 45_vectorized.md R113). That they stay is R114 (a), the spec's decision D25; that the arrays hold
the scalar state is its decision D22 (notes/assumptions/20.md). -/
def Obligations.SvCrrweirdElementZeroIsCrrweird : Prop :=
  ∀ (rt : GprNum) (bfa : FieldNum) (m : Bool) (fmsk fmap : Nibble) (c : SvContext) (s : State)
    (fields : List Nibble) (regs : List Word) (h : 2 ≤ fields.length),
    s.pc ≠ topPc → c.rtElwidth = 0 → c.rtIsVec = false → c.mapreduce = false → 0 < c.vl →
    ∃ b t, svExec (.crrweird rt.val bfa.val m fmsk fmap) c (s.svArrays fields regs h) = .next b ∧
      exec (.crrweird rt bfa m fmsk fmap) s = .next t ∧
      (b.gpr rt.val).getLsbD 0 = (t.gpr rt).getLsbD 0 ∧
      ∀ j, 0 < j → (b.gpr rt.val).getLsbD j = (s.gpr rt).getLsbD j

/-- The first eight fields and 32 registers of the arrays are the scalar ones, both ways: in the arrays of a state, and in
the state that takes any arrays (at least 10 fields and 32 registers, by their type), whose other parts stay
(10_state.md R31; the spec's decision D22, notes/assumptions/20.md). -/
def Obligations.SvArraysHoldTheScalarState : Prop :=
  (∀ (s : State) (fields : List Nibble) (regs : List Word) (h : 2 ≤ fields.length),
    (∀ k : FieldNum, (s.svArrays fields regs h).field k.val = s.crf k) ∧
    (∀ i : GprNum, (s.svArrays fields regs h).gpr i.val = s.gpr i) ∧
    s.withSvArrays (s.svArrays fields regs h) = s) ∧
  (∀ (s : State) (a : SvArrays),
    (∀ k : FieldNum, (s.withSvArrays a).crf k = a.field k.val) ∧
    (∀ i : GprNum, (s.withSvArrays a).gpr i = a.gpr i.val) ∧
    (s.withSvArrays a).pc = s.pc ∧ (s.withSvArrays a).xerSo = s.xerSo ∧ (s.withSvArrays a).mem = s.mem ∧
    (s.withSvArrays a).enc = s.enc ∧ (s.withSvArrays a).baseIsa = s.baseIsa ∧
    (s.withSvArrays a).ifetchEndian = s.ifetchEndian)

/-- What the page leaves undefined is refused by name: RT.elwidth other than 0b00; a scalar RT in mapreduce mode with VL
above 64 (sv.crrweird) or above 16 (sv.mfcrrweird); the four forms without a loop (R114 (c), R116, R118, R120). -/
def Obligations.SvUndefinedCasesAreRefused : Prop :=
  (∀ rt bb m fmsk fmap c a, c.rtElwidth ≠ 0 → svExec (.crrweird rt bb m fmsk fmap) c a = .refused .svDestElwidth) ∧
  (∀ rt bb fmsk fmap c a, c.rtElwidth ≠ 0 → svExec (.mfcrrweird rt bb fmsk fmap) c a = .refused .svDestElwidth) ∧
  (∀ rt bb m fmsk fmap c a, c.rtElwidth = 0 → c.rtIsVec = false → c.mapreduce = true → 64 < c.vl →
    svExec (.crrweird rt bb m fmsk fmap) c a = .refused .svScalarTooLong) ∧
  (∀ rt bb fmsk fmap c a, c.rtElwidth = 0 → c.rtIsVec = false → c.mapreduce = true → 16 < c.vl →
    svExec (.mfcrrweird rt bb fmsk fmap) c a = .refused .svScalarTooLong) ∧
  (∀ c a, svExec .mtcrrweird c a = .refused (.svNoLoop .mtcrrweird) ∧
    svExec .mtcrweird c a = .refused (.svNoLoop .mtcrweird) ∧ svExec .mcrfm c a = .refused (.svNoLoop .mcrfm) ∧
    svExec .crweirder c a = .refused (.svNoLoop .crweirder))

/-- The packing of the 16-bit table (45_vectorized.md R117, 95_test_vectors.md S2): with RT.elwidth 0b10, element i goes
to (i, 0), (i div 2, i mod 2), (i div 4, i mod 4) and (i div 4, i mod 4); and no destination element is asked to hold
more results than fit (R116, 90_conflicts.md C6; notes/assumptions/22.md). -/
def Obligations.SvPackingFitsTheElement : Prop :=
  (∀ i, svPackIndex 2 0 i = (i, 0) ∧ svPackIndex 2 1 i = (i / 2, i % 2) ∧ svPackIndex 2 2 i = (i / 4, i % 4) ∧
    svPackIndex 2 3 i = (i / 4, i % 4)) ∧
  (∀ (rtElwidth bbElwidth : BitVec 2) (i : Nat),
    4 * (svPackIndex rtElwidth bbElwidth i).2 + 4 ≤ svDestWidth rtElwidth)
end

