-- ==== Sys2Proof/Laws/Cr.lean ====
section
/-! SUPPORT. The Condition Register bit by bit: fields and bits after a write (00_scope.md R7). -/

namespace Sys2Proof.Machine

theorem crfOf_getLsbD (cr : CrWord) (k : FieldNum) (j : Nat) :
    (crfOf cr k).getLsbD j = (decide (j < 4) && cr.getLsbD (28 - 4 * k.val + j)) := by
  simp [crfOf, crfShift]

theorem nibbleMask_getLsbD (i : Nat) : (0xF#32).getLsbD i = decide (i < 4) := by
  by_cases hi : i < 32
  · interval_cases i <;> decide
  · rw [BitVec.getLsbD_of_ge _ _ (Nat.le_of_not_lt hi), decide_eq_false (by omega)]

theorem crfPut_getLsbD (cr : CrWord) (k : FieldNum) (v : Nibble) (n : Nat) :
    (crfPut cr k v).getLsbD n =
      if 28 - 4 * k.val ≤ n ∧ n < 28 - 4 * k.val + 4 then v.getLsbD (n - (28 - 4 * k.val)) else cr.getLsbD n := by
  have hk := k.isLt
  by_cases hn : n < 32
  · simp only [crfPut, crfShift, BitVec.getLsbD_or, BitVec.getLsbD_and, BitVec.getLsbD_not,
      BitVec.getLsbD_shiftLeft, BitVec.getLsbD_setWidth, nibbleMask_getLsbD, hn, decide_true, Bool.true_and]
    split <;> rename_i h
    · have h1 : ¬ n < 28 - 4 * k.val := by omega
      have h2 : n - (28 - 4 * k.val) < 4 := by omega
      have h3 : n - (28 - 4 * k.val) < 32 := by omega
      simp [h1, h2, h3]
    · by_cases h1 : n < 28 - 4 * k.val
      · simp [h1]
      · have h2 : ¬ n - (28 - 4 * k.val) < 4 := by omega
        simp [h1, h2, BitVec.getLsbD_of_ge v _ (Nat.le_of_not_lt h2)]
  · have : ¬ (28 - 4 * k.val ≤ n ∧ n < 28 - 4 * k.val + 4) := by omega
    rw [if_neg this, BitVec.getLsbD_of_ge _ _ (Nat.le_of_not_lt hn), BitVec.getLsbD_of_ge _ _ (Nat.le_of_not_lt hn)]

theorem crBitPut_getLsbD (cr : CrWord) (b : CrBitNum) (v : Bool) (n : Nat) :
    (crBitPut cr b v).getLsbD n = if n = 31 - b.val then v else cr.getLsbD n := by
  have hb := b.isLt
  by_cases hn : n < 32
  · simp only [crBitPut, crBitShift, BitVec.getLsbD_or, BitVec.getLsbD_and, BitVec.getLsbD_not,
      BitVec.getLsbD_shiftLeft, BitVec.getLsbD_setWidth, BitVec.getLsbD_one, hn, decide_true, Bool.true_and]
    split <;> rename_i h
    · subst h; simp
    · by_cases h1 : n < 31 - b.val
      · simp [h1]
      · have h2 : n - (31 - b.val) ≠ 0 := by omega
        have h3 : n - (31 - b.val) < 32 := by omega
        simp [h1, h2]
  · have : ¬ n = 31 - b.val := by omega
    rw [if_neg this, BitVec.getLsbD_of_ge _ _ (Nat.le_of_not_lt hn), BitVec.getLsbD_of_ge _ _ (Nat.le_of_not_lt hn)]

@[simp] theorem crfOf_crfPut_same (cr : CrWord) (k : FieldNum) (v : Nibble) : crfOf (crfPut cr k v) k = v := by
  have hk := k.isLt
  apply BitVec.eq_of_getLsbD_eq
  intro j hj
  rw [crfOf_getLsbD, crfPut_getLsbD, if_pos (by omega), decide_eq_true hj, Bool.true_and, Nat.add_sub_cancel_left]

theorem crfOf_crfPut_other (cr : CrWord) {k k' : FieldNum} (v : Nibble) (h : k' ≠ k) :
    crfOf (crfPut cr k v) k' = crfOf cr k' := by
  have hk := k.isLt
  have hk' := k'.isLt
  have hne : k'.val ≠ k.val := fun e => h (Fin.ext e)
  apply BitVec.eq_of_getLsbD_eq
  intro j hj
  rw [crfOf_getLsbD, crfOf_getLsbD, crfPut_getLsbD, if_neg (by omega)]

@[simp] theorem crBitOf_crBitPut_same (cr : CrWord) (b : CrBitNum) (v : Bool) : crBitOf (crBitPut cr b v) b = v := by
  rw [crBitOf, crBitShift, crBitPut_getLsbD, if_pos rfl]

theorem crBitOf_crBitPut_other (cr : CrWord) {b b' : CrBitNum} (v : Bool) (h : b' ≠ b) :
    crBitOf (crBitPut cr b v) b' = crBitOf cr b' := by
  have hb := b.isLt
  have hb' := b'.isLt
  have hne : b'.val ≠ b.val := fun e => h (Fin.ext e)
  rw [crBitOf, crBitShift, crBitPut_getLsbD, if_neg (by omega), crBitOf, crBitShift]

/-- CR bit 32+b is position b mod 4 of field b div 4, counted from the field's first bit (10_state.md R22). -/
theorem crBitOf_eq_crfOf (cr : CrWord) (b : CrBitNum) :
    crBitOf cr b = (crfOf cr (fieldOfBit b)).getLsbD (3 - b.val % 4) := by
  have hb := b.isLt
  rw [crfOf_getLsbD, decide_eq_true (by omega), Bool.true_and, crBitOf, crBitShift]
  congr 1
  simp only [fieldOfBit]
  omega

theorem crfOf_crBitPut_other (cr : CrWord) (b : CrBitNum) (v : Bool) {k : FieldNum} (h : k ≠ fieldOfBit b) :
    crfOf (crBitPut cr b v) k = crfOf cr k := by
  have hb := b.isLt
  have hk := k.isLt
  have hne : k.val ≠ b.val / 4 := fun e => h (Fin.ext e)
  apply BitVec.eq_of_getLsbD_eq
  intro j hj
  rw [crfOf_getLsbD, crfOf_getLsbD, crBitPut_getLsbD, if_neg (by omega)]

/-- The field of a written bit: that bit is the written one, the other three are the old ones (42_cr_to_cr.md R104). -/
theorem crfOf_crBitPut_getLsbD (cr : CrWord) (b : CrBitNum) (v : Bool) (j : Nat) :
    (crfOf (crBitPut cr b v) (fieldOfBit b)).getLsbD j =
      if j = 3 - b.val % 4 then v else (crfOf cr (fieldOfBit b)).getLsbD j := by
  have hb := b.isLt
  simp only [crfOf_getLsbD, crBitPut_getLsbD, fieldOfBit]
  by_cases hj : j < 4
  · by_cases h : j = 3 - b.val % 4
    · rw [if_pos (by omega), if_pos h, decide_eq_true hj, Bool.true_and]
    · rw [if_neg (by omega), if_neg h]
  · rw [decide_eq_false hj, Bool.false_and, Bool.false_and, if_neg (by omega)]

/-- Fields written one after another: each written field holds its value, the others the old one. -/
theorem crfOf_foldl_crfPut (f : FieldNum → Nibble) (l : List FieldNum) (cr : CrWord) (k : FieldNum) :
    crfOf (l.foldl (fun cr k => crfPut cr k (f k)) cr) k = if k ∈ l then f k else crfOf cr k := by
  induction l generalizing cr with
  | nil => simp
  | cons k' l ih =>
    rw [List.foldl_cons, ih]
    by_cases hl : k ∈ l
    · simp [hl]
    · by_cases hk : k = k'
      · simp [hk]
      · simp [hl, hk, crfOf_crfPut_other _ _ hk]

/-- The eight fields are the whole Condition Register. -/
theorem cr_ext {a b : CrWord} (h : ∀ k, crfOf a k = crfOf b k) : a = b := by
  apply BitVec.eq_of_getLsbD_eq
  intro n hn
  have hk := congrArg (fun v => BitVec.getLsbD v (n % 4)) (h ⟨7 - n / 4, by omega⟩)
  simp only [crfOf_getLsbD] at hk
  rw [decide_eq_true (by omega), Bool.true_and, Bool.true_and] at hk
  rwa [show 28 - 4 * (7 - n / 4) + n % 4 = n by omega] at hk

end Sys2Proof.Machine
end

