-- ==== Sys2Proof/Laws/Decode.lean ====
section
/-! SUPPORT. Words, fields, bytes and the match of an instruction: one lemma per function of Decode.lean. -/

namespace Sys2Proof

theorem toNat_append_add {m n : Nat} (a : BitVec m) (b : BitVec n) :
    (a ++ b).toNat = a.toNat * 2 ^ n + b.toNat := by
  rw [BitVec.toNat_append, ← Nat.shiftLeft_add_eq_or_of_lt b.isLt, Nat.shiftLeft_eq]

theorem extract_toNat {n : Nat} (w : BitVec n) (lo len : Nat) :
    (w.extractLsb' lo len).toNat = w.toNat / 2 ^ lo % 2 ^ len := by
  rw [BitVec.extractLsb'_toNat, Nat.shiftRight_eq_div_pow]

/-- The word as the sum of 30_encoding.md R56. -/
theorem wordOfFields_toNat (f : WordFields) :
    (wordOfFields f).toNat =
      f.po.toNat * 2 ^ 26 + f.f6.toNat * 2 ^ 21 + f.m.toNat * 2 ^ 20 + f.fmsk.toNat * 2 ^ 16 +
        f.f16.toNat * 2 ^ 13 + f.xoHi.toNat * 2 ^ 10 + f.fmap.toNat * 2 ^ 6 + f.xoLo.toNat * 2 + f.l.toNat := by
  change @BitVec.toNat (6 + 5 + 1 + 4 + 3 + 3 + 4 + 5 + 1)
    (f.po ++ f.f6 ++ f.m ++ f.fmsk ++ f.f16 ++ f.xoHi ++ f.fmap ++ f.xoLo ++ f.l) = _
  simp only [toNat_append_add]
  omega

/-- No bit of a field is lost in the word. -/
@[simp] theorem fieldsOfWord_wordOfFields (f : WordFields) : fieldsOfWord (wordOfFields f) = f := by
  have h := wordOfFields_toNat f
  obtain ⟨po, f6, m, fmsk, f16, xoHi, fmap, xoLo, l⟩ := f
  have := po.isLt; have := f6.isLt; have := m.isLt; have := fmsk.isLt; have := f16.isLt
  have := xoHi.isLt; have := fmap.isLt; have := xoLo.isLt; have := l.isLt
  simp only at h
  rw [fieldsOfWord, WordFields.mk.injEq]
  refine ⟨?_, ?_, ?_, ?_, ?_, ?_, ?_, ?_, ?_⟩ <;>
  · apply BitVec.eq_of_toNat_eq
    rw [extract_toNat, h]
    omega

/-- No bit of a word is lost in its fields. -/
@[simp] theorem wordOfFields_fieldsOfWord (w : InstrWord) : wordOfFields (fieldsOfWord w) = w := by
  apply BitVec.eq_of_toNat_eq
  rw [wordOfFields_toNat]
  simp only [fieldsOfWord, extract_toNat]
  have := w.isLt
  omega

theorem fieldsOfWord_encode (e : Enc) (i : Instr) : fieldsOfWord (encode e i) = fieldsOfInstr e i :=
  fieldsOfWord_wordOfFields _

/-- The four bytes of a word make it again, in either order. -/
theorem word_of_bytes (en : Endian) (w : InstrWord) :
    ∃ b0 b1 b2 b3, bytesOfWord en w = [b0, b1, b2, b3] ∧ wordOfBytes en b0 b1 b2 b3 = w := by
  have key : ∀ v : InstrWord,
      v.extractLsb' 24 8 ++ v.extractLsb' 16 8 ++ v.extractLsb' 8 8 ++ v.extractLsb' 0 8 = v := by
    intro v
    apply BitVec.eq_of_toNat_eq
    simp only [toNat_append_add, extract_toNat]
    have := v.isLt
    omega
  cases en
  · exact ⟨_, _, _, _, rfl, key w⟩
  · exact ⟨_, _, _, _, rfl, key w⟩

theorem decodeBytes_bytesOfWord (e : Enc) (en : Endian) (w : InstrWord) (rest : List Byte) :
    decodeBytes e en (bytesOfWord en w ++ rest) = some (decode e w, rest) := by
  obtain ⟨b0, b1, b2, b3, hb, hw⟩ := word_of_bytes en w
  rw [hb]
  simp [decodeBytes, hw]

/-! Matching. -/

theorem mem_opAll (op : Op) : op ∈ Op.all := by cases op <;> decide

theorem matchesOp_iff (e : Enc) (f : WordFields) (op : Op) :
    matchesOp e f op = true ↔
      f.po = (e.opcode op).po ∧ f.xoHi = (e.opcode op).xoHi ∧ f.xoLo = (e.opcode op).xoLo ∧
        ∀ b, e.b31 op = some b → f.l = b := by
  unfold matchesOp
  cases h : e.b31 op <;> simp [and_assoc]

/-- Fields that match an instruction hold its triple. -/
theorem opcode_of_matchesOp {e : Enc} {f : WordFields} {op : Op} (h : matchesOp e f op = true) :
    e.opcode op = ⟨f.po, f.xoHi, f.xoLo⟩ := by
  obtain ⟨h1, h2, h3, _⟩ := (matchesOp_iff e f op).mp h
  rw [h1, h2, h3]

theorem mem_matchingOps {e : Enc} {f : WordFields} {op : Op} : op ∈ matchingOps e f ↔ matchesOp e f op = true := by
  have := mem_opAll op
  simp [matchingOps, this]

/-- What decoding answers, by which instructions match. -/
theorem decode_cases (e : Enc) (w : InstrWord) :
    (matchingOps e (fieldsOfWord w) = [] ∧ decode e w = .illegal) ∨
    (∃ op, matchingOps e (fieldsOfWord w) = [op] ∧ reservedSet op (fieldsOfWord w) = true ∧
      decode e w = .reserved op) ∨
    (∃ op, matchingOps e (fieldsOfWord w) = [op] ∧ reservedSet op (fieldsOfWord w) = false ∧
      decode e w = .instr (readOperands op (fieldsOfWord w))) ∨
    (2 ≤ (matchingOps e (fieldsOfWord w)).length ∧ decode e w = .ambiguous) := by
  unfold decode
  match h : matchingOps e (fieldsOfWord w) with
  | [] => simp
  | [op] => cases hr : reservedSet op (fieldsOfWord w) <;> simp [hr]
  | _ :: _ :: _ => simp

theorem decode_eq_of_single {e : Enc} {w : InstrWord} {op : Op} (h : matchingOps e (fieldsOfWord w) = [op]) :
    decode e w = if reservedSet op (fieldsOfWord w) then .reserved op
      else .instr (readOperands op (fieldsOfWord w)) := by
  simp only [decode, h]

/-- Under an admissible ENC the triple tells the instruction (30_encoding.md R58). -/
theorem op_eq_of_opcode_eq {e : Enc} (h : e.Admissible) {a b : Op} (hab : e.opcode a = e.opcode b) : a = b := by
  have hmem := mem_opAll
  exact List.inj_on_of_nodup_map h (hmem a) (hmem b) hab

/-- Under an admissible ENC fields that match an instruction match it alone (30_encoding.md R67). -/
theorem matchingOps_eq_single {e : Enc} (h : e.Admissible) {f : WordFields} {op : Op}
    (hm : matchesOp e f op = true) : matchingOps e f = [op] := by
  have h1 : ∀ o ∈ matchingOps e f, o = op := fun o ho =>
    op_eq_of_opcode_eq h ((opcode_of_matchesOp (mem_matchingOps.mp ho)).trans (opcode_of_matchesOp hm).symm)
  have hn : (matchingOps e f).Nodup := List.Nodup.filter _ (by decide)
  have h2 : op ∈ matchingOps e f := mem_matchingOps.mpr hm
  match hl : matchingOps e f with
  | [] => simp [hl] at h2
  | [o] => rw [h1 o (by simp [hl])]
  | a :: b :: r =>
    rw [hl] at h1 hn
    have ha := h1 a (by simp)
    have hb := h1 b (by simp)
    simp [ha, hb] at hn

/-! The mask and the match of an instruction (30_encoding.md R59), and words of BASE_ISA. -/

theorem fieldsOfWord_inj {v w : InstrWord} : fieldsOfWord v = fieldsOfWord w ↔ v = w :=
  ⟨fun h => by rw [← wordOfFields_fieldsOfWord v, h, wordOfFields_fieldsOfWord], congrArg _⟩

/-- Masking a word masks its fields. -/
theorem fieldsOfWord_and (v w : InstrWord) : fieldsOfWord (v &&& w) =
    { po := (fieldsOfWord v).po &&& (fieldsOfWord w).po, f6 := (fieldsOfWord v).f6 &&& (fieldsOfWord w).f6,
      m := (fieldsOfWord v).m &&& (fieldsOfWord w).m, fmsk := (fieldsOfWord v).fmsk &&& (fieldsOfWord w).fmsk,
      f16 := (fieldsOfWord v).f16 &&& (fieldsOfWord w).f16, xoHi := (fieldsOfWord v).xoHi &&& (fieldsOfWord w).xoHi,
      fmap := (fieldsOfWord v).fmap &&& (fieldsOfWord w).fmap, xoLo := (fieldsOfWord v).xoLo &&& (fieldsOfWord w).xoLo,
      l := (fieldsOfWord v).l &&& (fieldsOfWord w).l } := by
  simp only [fieldsOfWord, BitVec.extractLsb'_and]

/-- A word matches an instruction when it equals the match under the mask (30_encoding.md R59, R67). -/
theorem matchesOp_iff_masked (e : Enc) (w : InstrWord) (op : Op) :
    matchesOp e (fieldsOfWord w) op = true ↔ w &&& e.opMask op = e.opMatch op := by
  rw [matchesOp_iff, ← fieldsOfWord_inj, fieldsOfWord_and, Enc.opMask, Enc.opMatch, fieldsOfWord_wordOfFields,
    fieldsOfWord_wordOfFields, WordFields.mk.injEq]
  have ones6 : ∀ x : BitVec 6, x &&& 63#6 = x := by decide
  have ones3 : ∀ x : BitVec 3, x &&& 7#3 = x := by decide
  have ones5 : ∀ x : BitVec 5, x &&& 31#5 = x := by decide
  have ones1 : ∀ x : BitVec 1, x &&& 1#1 = x := by decide
  cases e.b31 op <;> simp [ones6, ones3, ones5, ones1]

theorem opMatch_and_opMask (e : Enc) (op : Op) : e.opMatch op &&& e.opMask op = e.opMatch op := by
  rw [← matchesOp_iff_masked, Enc.opMatch, fieldsOfWord_wordOfFields, matchesOp_iff]
  exact ⟨rfl, rfl, rfl, fun b hb => by simp [hb]⟩

/-- What the row check decides: no word is in the row and under the mask equal to `bits`. -/
theorem BaseRow.apart_iff (r : BaseRow) {mask bits : InstrWord} (hb : bits &&& mask = bits) :
    r.apart mask bits = true ↔ ∀ w, w &&& r.mask = r.bits → w &&& mask ≠ bits := by
  have bit := fun (x y : InstrWord) (i : Nat) (h : x = y) => congrArg (fun v => BitVec.getLsbD v i) h
  simp only [BaseRow.apart, Bool.or_eq_true, bne_iff_ne, ne_eq]
  constructor
  · rintro h w hr hm
    rw [← hr, ← hm] at h
    refine h.elim (fun h => h ?_) (fun h => h ?_) <;>
    · apply BitVec.eq_of_getLsbD_eq
      intro i hi
      simp only [BitVec.ofNat_eq_ofNat, BitVec.getLsbD_and, BitVec.getLsbD_not, BitVec.getLsbD_xor,
        BitVec.getLsbD_zero, hi, decide_true]
      cases w.getLsbD i <;> cases r.mask.getLsbD i <;> cases mask.getLsbD i <;> rfl
  · intro h
    by_contra hn
    simp only [not_or, not_not] at hn
    refine h (r.bits ||| bits) ?_ ?_ <;>
    · apply BitVec.eq_of_getLsbD_eq
      intro i hi
      have h1 := bit _ _ i hn.1
      have h2 := bit _ _ i hn.2
      have h3 := bit _ _ i hb
      simp only [BitVec.ofNat_eq_ofNat, BitVec.getLsbD_and, BitVec.getLsbD_not, BitVec.getLsbD_xor, BitVec.getLsbD_or,
        BitVec.getLsbD_zero, hi, decide_true] at h1 h2 h3 ⊢
      revert h1 h2 h3
      cases r.bits.getLsbD i <;> cases bits.getLsbD i <;> cases r.mask.getLsbD i <;> cases mask.getLsbD i <;> decide

/-- What the check of ENC against BASE_ISA decides (30_encoding.md R58). -/
theorem disjointFrom_iff (e : Enc) (b : BaseIsa) :
    e.disjointFrom b = true ↔ ∀ w, b.has w = true → ∀ op, matchesOp e (fieldsOfWord w) op = false := by
  simp only [Enc.disjointFrom, BaseIsa.has, List.all_eq_true, List.any_eq_true, beq_iff_eq,
    BaseRow.apart_iff _ (opMatch_and_opMask e _), ← Bool.not_eq_true, matchesOp_iff_masked]
  exact ⟨fun h w ⟨r, hr, hw⟩ op => h r hr op (mem_opAll op) w hw, fun h r hr op _ w hw => h w ⟨r, hr, hw⟩ op⟩

/-! Bytes as numbers (20_memory.md R41). -/

theorem wordOfBytes_toNat (en : Endian) (b0 b1 b2 b3 : Byte) : (wordOfBytes en b0 b1 b2 b3).toNat =
    match en with
    | .big => b0.toNat * 2 ^ 24 + b1.toNat * 2 ^ 16 + b2.toNat * 2 ^ 8 + b3.toNat
    | .little => b3.toNat * 2 ^ 24 + b2.toNat * 2 ^ 16 + b1.toNat * 2 ^ 8 + b0.toNat := by
  cases en <;> simp only [wordOfBytes, toNat_append_add] <;> omega

/-! Field widths. -/

@[simp] theorem field5_toFin (n : Fin 32) : (field5 n).toFin = n := rfl
@[simp] theorem field3_toFin (n : Fin 8) : (field3 n).toFin = n := rfl
@[simp] theorem field5_toNat (n : Fin 32) : (field5 n).toNat = n.val := rfl
@[simp] theorem field3_toNat (n : Fin 8) : (field3 n).toNat = n.val := rfl
@[simp] theorem ofBool_beq_one (m : Bool) : (BitVec.ofBool m == 1#1) = m := by cases m <;> rfl
@[simp] theorem ofBool_of_beq_one (b : BitVec 1) : BitVec.ofBool (b == 1#1) = b := by revert b; decide
theorem bit_eq_zero {b : BitVec 1} (h : b ≠ 1) : b = 0 := by revert b; decide
@[simp] theorem field5_of_toFin (b : BitVec 5) : field5 b.toFin = b := rfl
@[simp] theorem field3_of_toFin (b : BitVec 3) : field3 b.toFin = b := rfl

/-- The six bits 6 to 10 of mcrfm as a number: BF * 4 (30_encoding.md R56). -/
theorem mcrfm_f6_toNat (n : Fin 8) : (field3 n ++ 0#2).toNat = n.val * 4 := by
  rw [toNat_append_add]
  simp

theorem mcrfm_f6_of_blank {b : BitVec 5} (h : mcrfmBlank b = 0#2) : mcrfmTarget b ++ 0#2 = b := by
  revert b; decide

@[simp] theorem mcrfmTarget_append (n : Fin 8) : mcrfmTarget (field3 n ++ 0#2) = field3 n := by
  revert n; decide

@[simp] theorem mcrfmBlank_append (n : Fin 8) : mcrfmBlank (field3 n ++ 0#2) = 0 := by
  revert n; decide

end Sys2Proof
end

