-- ==== Sys2Proof/Laws/Memory.lean ====
section
/-! SUPPORT. The instruction space: read after write, and the canonical form, which every memory operation keeps. -/

namespace Sys2Proof.Machine

@[simp] theorem memRead_nil (a : Nat) : memRead [] a = none := rfl

@[simp] theorem memRead_memWrite_same (m : List Host.Cell) (a : Nat) (b : Byte) :
    memRead (memWrite m a b) a = some b := by
  induction m with
  | nil => simp [memWrite, memRead]
  | cons c m ih =>
    obtain ⟨a', b'⟩ := c
    by_cases h1 : a < a'
    · simp [memWrite, memRead, h1]
    · by_cases h2 : a = a'
      · simp [memWrite, memRead, h2]
      · simp [memWrite, memRead, h1, h2, ih]

theorem memRead_memWrite_other (m : List Host.Cell) {a a' : Nat} (b : Byte) (h : a' ≠ a) :
    memRead (memWrite m a b) a' = memRead m a' := by
  induction m with
  | nil => simp [memWrite, memRead, h]
  | cons c m ih =>
    obtain ⟨a'', b''⟩ := c
    by_cases h1 : a < a''
    · simp [memWrite, memRead, h1, h]
    · by_cases h2 : a = a''
      · subst h2; simp [memWrite, memRead, h]
      · simp [memWrite, memRead, h1, h2, ih]

theorem memRead_isSome {m : List Host.Cell} {a : Nat} : (memRead m a).isSome ↔ a ∈ m.map Prod.fst := by
  induction m with
  | nil => simp [memRead]
  | cons c m ih =>
    obtain ⟨a', b'⟩ := c
    by_cases h : a = a'
    · simp [memRead, h]
    · simp [memRead, h, ih]

theorem memWrite_keys (m : List Host.Cell) (a : Nat) (b : Byte) (k : Nat) :
    k ∈ (memWrite m a b).map Prod.fst ↔ k = a ∨ k ∈ m.map Prod.fst := by
  rw [← memRead_isSome, ← memRead_isSome]
  by_cases h : k = a
  · subst h; simp
  · rw [memRead_memWrite_other m b h]; simp [h]

/-- Writing a byte keeps the canonical form. -/
theorem memWrite_wf {m : List Host.Cell} {a : Nat} (b : Byte) (h : Memory.wf m) (ha : a < 2 ^ 64) :
    Memory.wf (memWrite m a b) := by
  refine ⟨?_, ?_⟩
  · have hp := h.1
    clear h
    induction m with
    | nil => simp [memWrite]
    | cons c m ih =>
      obtain ⟨a', b'⟩ := c
      simp only [List.map_cons, List.pairwise_cons] at hp
      by_cases h1 : a < a'
      · simp only [memWrite, h1, if_true, List.map_cons, List.pairwise_cons, List.mem_cons]
        refine ⟨?_, hp⟩
        rintro k (rfl | hk)
        · exact h1
        · exact h1.trans (hp.1 k hk)
      · by_cases h2 : a = a'
        · subst h2
          simpa [memWrite] using hp
        · simp only [memWrite, h1, h2, if_false, List.map_cons, List.pairwise_cons]
          refine ⟨?_, ih hp.2⟩
          intro k hk
          rcases (memWrite_keys m a b k).mp hk with rfl | hk
          · omega
          · exact hp.1 k hk
  · intro c hc
    rcases (memWrite_keys m a b c.1).mp (List.mem_map_of_mem hc) with h1 | h1
    · omega
    · obtain ⟨d, hd, he⟩ := List.mem_map.mp h1
      exact he ▸ h.2 d hd

theorem memWriteBytes_wf {m : List Host.Cell} (a : Word) (bs : List Byte) (h : Memory.wf m) :
    Memory.wf (memWriteBytes m a bs) := by
  induction bs generalizing m a with
  | nil => exact h
  | cons b bs ih => exact ih (a + 1) (memWrite_wf b h a.isLt)

theorem memWriteWord_wf {m : List Host.Cell} (en : Endian) (a : Word) (w : InstrWord) (h : Memory.wf m) :
    Memory.wf (memWriteWord m en a w) :=
  memWriteBytes_wf a _ h

theorem empty_wf : Memory.wf [] := ⟨List.Pairwise.nil, by simp⟩

theorem loadProgram_wf (en : Endian) (p : List (Word × InstrWord)) : Memory.wf (loadProgram en p) := by
  induction p with
  | nil => exact empty_wf
  | cons c p ih => exact memWriteWord_wf en c.1 c.2 ih

theorem withFetchWord_wf (s : State) (nbits w : Nat) (h : Memory.wf s.mem) :
    Memory.wf (s.withFetchWord nbits w).mem :=
  memWriteWord_wf _ _ _ h

theorem reset_memory_wf : Memory.wf State.reset.mem := empty_wf

/-! Words. -/

/-- The bytes of a word written at an aligned address. -/
theorem memRead_memWriteWord (m : List Host.Cell) (en : Endian) (a : Word) (w : InstrWord)
    (ha : a.toNat % 4 = 0) : ∃ b0 b1 b2 b3, wordOfBytes en b0 b1 b2 b3 = w ∧
      ∀ k, memRead (memWriteWord m en a w) k =
        if k = a.toNat then some b0 else if k = a.toNat + 1 then some b1
        else if k = a.toNat + 2 then some b2 else if k = a.toNat + 3 then some b3 else memRead m k := by
  obtain ⟨b0, b1, b2, b3, hb, hw⟩ := word_of_bytes en w
  refine ⟨b0, b1, b2, b3, hw, fun k => ?_⟩
  have := a.isLt
  have h1 : (a + 1).toNat = a.toNat + 1 := by simp [BitVec.toNat_add]; omega
  have h2 : (a + 1 + 1).toNat = a.toNat + 2 := by rw [BitVec.toNat_add, h1]; simp; omega
  have h3 : (a + 1 + 1 + 1).toNat = a.toNat + 3 := by rw [BitVec.toNat_add, h2]; simp; omega
  simp only [memWriteWord, hb, memWriteBytes, h1, h2, h3]
  split_ifs with e0 e1 e2 e3
  · subst e0
    rw [memRead_memWrite_other _ _ (by omega), memRead_memWrite_other _ _ (by omega),
      memRead_memWrite_other _ _ (by omega), memRead_memWrite_same]
  · subst e1
    rw [memRead_memWrite_other _ _ (by omega), memRead_memWrite_other _ _ (by omega), memRead_memWrite_same]
  · subst e2
    rw [memRead_memWrite_other _ _ (by omega), memRead_memWrite_same]
  · subst e3
    rw [memRead_memWrite_same]
  · rw [memRead_memWrite_other _ _ e3, memRead_memWrite_other _ _ e2, memRead_memWrite_other _ _ e1,
      memRead_memWrite_other _ _ e0]

/-- A word written at an aligned address is the word fetched there. -/
theorem memWord_memWriteWord_same (m : List Host.Cell) (en : Endian) (a : Word) (w : InstrWord)
    (ha : a.toNat % 4 = 0) : memWord (memWriteWord m en a w) en a.toNat = some w := by
  obtain ⟨b0, b1, b2, b3, hw, h⟩ := memRead_memWriteWord m en a w ha
  simp [memWord, h, hw]

/-- A word written at one aligned address leaves the word at another. -/
theorem memWord_memWriteWord_other (m : List Host.Cell) (en en' : Endian) (a : Word) (w : InstrWord) {k : Nat}
    (ha : a.toNat % 4 = 0) (hk : k % 4 = 0) (hne : k ≠ a.toNat) :
    memWord (memWriteWord m en a w) en' k = memWord m en' k := by
  obtain ⟨b0, b1, b2, b3, _, h⟩ := memRead_memWriteWord m en a w ha
  have e : ∀ j < 4, memRead (memWriteWord m en a w) (k + j) = memRead m (k + j) := by
    intro j hj
    rw [h, if_neg (by omega), if_neg (by omega), if_neg (by omega), if_neg (by omega)]
  have e0 := e 0 (by omega)
  rw [Nat.add_zero] at e0
  simp only [memWord, e0, e 1 (by omega), e 2 (by omega), e 3 (by omega)]

/-- Whether a word is held does not depend on the byte order. -/
theorem holdsWord_eq (m : List Host.Cell) (en : Endian) (a : Nat) : holdsWord m a = (memWord m en a).isSome := by
  unfold holdsWord memWord
  split <;> simp_all

theorem mem_wordAddresses {m : List Host.Cell} (en : Endian) {a : Nat} :
    a ∈ wordAddresses m ↔ a % 4 = 0 ∧ (memWord m en a).isSome := by
  simp only [wordAddresses, List.mem_filter, Bool.and_eq_true, beq_iff_eq, holdsWord_eq m en]
  constructor
  · rintro ⟨_, h⟩; exact h
  · rintro ⟨h1, h2⟩
    refine ⟨?_, h1, h2⟩
    rw [← memRead_isSome]
    unfold memWord at h2
    split at h2 <;> simp_all

/-! Where a program ends. -/

theorem getLast?_of_increasing {l : List Nat} (h : l.Pairwise (· < ·)) {x : Nat} (hx : l.getLast? = some x) :
    x ∈ l ∧ ∀ y ∈ l, y ≤ x := by
  obtain ⟨ys, rfl⟩ := List.getLast?_eq_some_iff.mp hx
  rw [List.pairwise_append] at h
  refine ⟨by simp, fun y hy => ?_⟩
  rcases List.mem_append.mp hy with hy | hy
  · exact Nat.le_of_lt (h.2.2 y hy x (by simp))
  · exact Nat.le_of_eq (List.mem_singleton.mp hy)

/-- The end of a program is 4 past its highest word (70_reset_and_hazards.md R153). -/
theorem programEnd_iff {m : List Host.Cell} (h : Memory.wf m) (en : Endian) (e : Nat) :
    programEnd m = some e ↔
      ∃ a, a % 4 = 0 ∧ a + 4 = e ∧ (memWord m en a).isSome ∧
        ∀ a', a' % 4 = 0 → (memWord m en a').isSome → a' ≤ a := by
  have hs : (wordAddresses m).Pairwise (· < ·) := h.1.filter _
  rw [programEnd, Option.map_eq_some_iff]
  constructor
  · rintro ⟨x, hx, rfl⟩
    obtain ⟨hm, hmax⟩ := getLast?_of_increasing hs hx
    obtain ⟨h1, h2⟩ := (mem_wordAddresses en).mp hm
    exact ⟨x, h1, rfl, h2, fun a' h3 h4 => hmax a' ((mem_wordAddresses en).mpr ⟨h3, h4⟩)⟩
  · rintro ⟨a, h1, rfl, h2, hmax⟩
    have hm : a ∈ wordAddresses m := (mem_wordAddresses en).mpr ⟨h1, h2⟩
    cases hx : (wordAddresses m).getLast? with
    | none => rw [List.getLast?_eq_none_iff.mp hx] at hm; cases hm
    | some x =>
      obtain ⟨hxm, hxmax⟩ := getLast?_of_increasing hs hx
      obtain ⟨h3, h4⟩ := (mem_wordAddresses en).mp hxm
      exact ⟨x, rfl, by have := hxmax a hm; have := hmax x h3 h4; omega⟩

end Sys2Proof.Machine
end

