-- ==== Sys2Proof/Laws/Launch.lean ====
section
/-! SUPPORT. What a launch answers, and what loading a program puts into the instruction space
(70_reset_and_hazards.md R151, 20_memory.md R41). -/

namespace Sys2Proof.Machine

theorem isProgram_iff (p : List (Word × InstrWord)) :
    isProgram p = true ↔ (∀ c ∈ p, c.1.toNat % 4 = 0) ∧ (p.map Prod.fst).Nodup := by
  simp [isProgram]

/-- A launch that answers a state met the four checks, and the state is the given one. -/
theorem launch_next {p : LaunchParams} {s : State} (h : launch p = .next s) :
    p.entry.toNat % 4 = 0 ∧ (p.enc.Admissible ∧ p.enc.disjointFrom p.baseIsa = true) ∧ isProgram p.program = true ∧ p.entry ∈ p.program.map Prod.fst ∧
      s = { x := p.x, cr := p.cr, xerSo := p.xerSo, pc := p.entry, mem := loadProgram p.ifetchEndian p.program,
            enc := p.enc, baseIsa := p.baseIsa, ifetchEndian := p.ifetchEndian } := by
  unfold launch at h
  split_ifs at h with h1 h2 h3 h4
  injection h with h
  exact ⟨by omega, h2, by simpa using h3, h4, h.symm⟩

/-- A loaded program holds its own words and no other. -/
theorem memWord_loadProgram (en : Endian) {p : List (Word × InstrWord)} (ha : ∀ c ∈ p, c.1.toNat % 4 = 0)
    (hn : (p.map Prod.fst).Nodup) {a : Nat} (w : InstrWord) (h : a % 4 = 0) :
    memWord (loadProgram en p) en a = some w ↔ ∃ b, (b, w) ∈ p ∧ b.toNat = a := by
  induction p with
  | nil => simp [loadProgram, memWord]
  | cons c p ih =>
    obtain ⟨b, v⟩ := c
    have hb := ha (b, v) (by simp)
    simp only [List.map_cons, List.nodup_cons] at hn
    have ih := ih (fun c hc => ha c (by simp [hc])) hn.2
    simp only [loadProgram]
    by_cases e : a = b.toNat
    · subst e
      rw [memWord_memWriteWord_same _ _ _ _ hb]
      constructor
      · intro h1
        exact ⟨b, by simp [Option.some.inj h1], rfl⟩
      · rintro ⟨b', h1, h2⟩
        obtain rfl := BitVec.eq_of_toNat_eq h2
        rcases List.mem_cons.mp h1 with h1 | h1
        · rw [(Prod.mk.inj h1).2]
        · exact absurd (List.mem_map_of_mem (f := Prod.fst) h1) hn.1
    · rw [memWord_memWriteWord_other _ _ _ _ _ hb h e, ih]
      constructor
      · rintro ⟨b', h1, h2⟩
        exact ⟨b', List.mem_cons_of_mem _ h1, h2⟩
      · rintro ⟨b', h1, h2⟩
        rcases List.mem_cons.mp h1 with h1 | h1
        · exact absurd ((Prod.mk.inj h1).1 ▸ h2.symm) e
        · exact ⟨b', h1, h2⟩

end Sys2Proof.Machine
end

