-- ==== Sys2Proof/Laws/State.lean ====
section
/-! SUPPORT. Every update of State, field by field. -/

namespace Sys2Proof.Machine

/-! setGpr. -/

@[simp] theorem setGpr_cr (s : State) (i : GprNum) (v : Word) : (s.setGpr i v).cr = s.cr := rfl
@[simp] theorem setGpr_xerSo (s : State) (i : GprNum) (v : Word) : (s.setGpr i v).xerSo = s.xerSo := rfl
@[simp] theorem setGpr_pc (s : State) (i : GprNum) (v : Word) : (s.setGpr i v).pc = s.pc := rfl
@[simp] theorem setGpr_mem (s : State) (i : GprNum) (v : Word) : (s.setGpr i v).mem = s.mem := rfl
@[simp] theorem setGpr_enc (s : State) (i : GprNum) (v : Word) : (s.setGpr i v).enc = s.enc := rfl
@[simp] theorem setGpr_baseIsa (s : State) (i : GprNum) (v : Word) : (s.setGpr i v).baseIsa = s.baseIsa := rfl
@[simp] theorem setGpr_ifetchEndian (s : State) (i : GprNum) (v : Word) :
    (s.setGpr i v).ifetchEndian = s.ifetchEndian := rfl
@[simp] theorem setGpr_crf (s : State) (i : GprNum) (v : Word) (k : FieldNum) : (s.setGpr i v).crf k = s.crf k := rfl
@[simp] theorem setGpr_crBit (s : State) (i : GprNum) (v : Word) (b : CrBitNum) :
    (s.setGpr i v).crBit b = s.crBit b := rfl

@[simp] theorem setGpr_gpr_same (s : State) (i : GprNum) (v : Word) : (s.setGpr i v).gpr i = v := by
  simp [State.setGpr, State.gpr]

theorem setGpr_gpr_other (s : State) {i j : GprNum} (v : Word) (h : j ≠ i) : (s.setGpr i v).gpr j = s.gpr j := by
  have : i.val ≠ j.val := fun e => h (Fin.ext e.symm)
  simp [State.setGpr, State.gpr, Vector.getElem_set_ne, this]

/-! setCrf. -/

@[simp] theorem setCrf_x (s : State) (k : FieldNum) (v : Nibble) : (s.setCrf k v).x = s.x := rfl
@[simp] theorem setCrf_gpr (s : State) (k : FieldNum) (v : Nibble) (i : GprNum) :
    (s.setCrf k v).gpr i = s.gpr i := rfl
@[simp] theorem setCrf_xerSo (s : State) (k : FieldNum) (v : Nibble) : (s.setCrf k v).xerSo = s.xerSo := rfl
@[simp] theorem setCrf_pc (s : State) (k : FieldNum) (v : Nibble) : (s.setCrf k v).pc = s.pc := rfl
@[simp] theorem setCrf_mem (s : State) (k : FieldNum) (v : Nibble) : (s.setCrf k v).mem = s.mem := rfl
@[simp] theorem setCrf_enc (s : State) (k : FieldNum) (v : Nibble) : (s.setCrf k v).enc = s.enc := rfl
@[simp] theorem setCrf_baseIsa (s : State) (k : FieldNum) (v : Nibble) : (s.setCrf k v).baseIsa = s.baseIsa := rfl
@[simp] theorem setCrf_ifetchEndian (s : State) (k : FieldNum) (v : Nibble) :
    (s.setCrf k v).ifetchEndian = s.ifetchEndian := rfl

@[simp] theorem setCrf_crf_same (s : State) (k : FieldNum) (v : Nibble) : (s.setCrf k v).crf k = v :=
  crfOf_crfPut_same s.cr k v

theorem setCrf_crf_other (s : State) {k k' : FieldNum} (v : Nibble) (h : k' ≠ k) :
    (s.setCrf k v).crf k' = s.crf k' :=
  crfOf_crfPut_other s.cr v h

/-! setCrBit. -/

@[simp] theorem setCrBit_x (s : State) (b : CrBitNum) (v : Bool) : (s.setCrBit b v).x = s.x := rfl
@[simp] theorem setCrBit_gpr (s : State) (b : CrBitNum) (v : Bool) (i : GprNum) :
    (s.setCrBit b v).gpr i = s.gpr i := rfl
@[simp] theorem setCrBit_xerSo (s : State) (b : CrBitNum) (v : Bool) : (s.setCrBit b v).xerSo = s.xerSo := rfl
@[simp] theorem setCrBit_pc (s : State) (b : CrBitNum) (v : Bool) : (s.setCrBit b v).pc = s.pc := rfl
@[simp] theorem setCrBit_mem (s : State) (b : CrBitNum) (v : Bool) : (s.setCrBit b v).mem = s.mem := rfl
@[simp] theorem setCrBit_enc (s : State) (b : CrBitNum) (v : Bool) : (s.setCrBit b v).enc = s.enc := rfl
@[simp] theorem setCrBit_baseIsa (s : State) (b : CrBitNum) (v : Bool) : (s.setCrBit b v).baseIsa = s.baseIsa := rfl
@[simp] theorem setCrBit_ifetchEndian (s : State) (b : CrBitNum) (v : Bool) :
    (s.setCrBit b v).ifetchEndian = s.ifetchEndian := rfl

@[simp] theorem setCrBit_crBit_same (s : State) (b : CrBitNum) (v : Bool) : (s.setCrBit b v).crBit b = v :=
  crBitOf_crBitPut_same s.cr b v

theorem setCrBit_crBit_other (s : State) {b b' : CrBitNum} (v : Bool) (h : b' ≠ b) :
    (s.setCrBit b v).crBit b' = s.crBit b' :=
  crBitOf_crBitPut_other s.cr v h

theorem setCrBit_crf_other (s : State) (b : CrBitNum) (v : Bool) {k : FieldNum} (h : k ≠ fieldOfBit b) :
    (s.setCrBit b v).crf k = s.crf k :=
  crfOf_crBitPut_other s.cr b v h

/-! record and matchIntoField, the two shared writes of the families. -/

@[simp] theorem record_gpr (s : State) (v : Word) (i : GprNum) : (s.record v).gpr i = s.gpr i := rfl
@[simp] theorem record_xerSo (s : State) (v : Word) : (s.record v).xerSo = s.xerSo := rfl
@[simp] theorem record_pc (s : State) (v : Word) : (s.record v).pc = s.pc := rfl
@[simp] theorem record_mem (s : State) (v : Word) : (s.record v).mem = s.mem := rfl
@[simp] theorem record_enc (s : State) (v : Word) : (s.record v).enc = s.enc := rfl
@[simp] theorem record_baseIsa (s : State) (v : Word) : (s.record v).baseIsa = s.baseIsa := rfl
@[simp] theorem record_ifetchEndian (s : State) (v : Word) : (s.record v).ifetchEndian = s.ifetchEndian := rfl

@[simp] theorem record_crf_zero (s : State) (v : Word) : (s.record v).crf 0 = analyse v s.xerSo :=
  setCrf_crf_same s 0 _

theorem record_crf_other (s : State) (v : Word) {k : FieldNum} (h : k ≠ 0) : (s.record v).crf k = s.crf k :=
  setCrf_crf_other s _ h

section
variable (s : State) (bf : FieldNum) (creg : Nibble) (m : Bool) (fmsk fmap : Nibble)

@[simp] theorem matchIntoField_x : (s.matchIntoField bf creg m fmsk fmap).x = s.x := rfl
@[simp] theorem matchIntoField_gpr (i : GprNum) : (s.matchIntoField bf creg m fmsk fmap).gpr i = s.gpr i := rfl
@[simp] theorem matchIntoField_xerSo : (s.matchIntoField bf creg m fmsk fmap).xerSo = s.xerSo := rfl
@[simp] theorem matchIntoField_pc : (s.matchIntoField bf creg m fmsk fmap).pc = s.pc := rfl
@[simp] theorem matchIntoField_mem : (s.matchIntoField bf creg m fmsk fmap).mem = s.mem := rfl
@[simp] theorem matchIntoField_enc : (s.matchIntoField bf creg m fmsk fmap).enc = s.enc := rfl
@[simp] theorem matchIntoField_baseIsa : (s.matchIntoField bf creg m fmsk fmap).baseIsa = s.baseIsa := rfl
@[simp] theorem matchIntoField_ifetchEndian :
    (s.matchIntoField bf creg m fmsk fmap).ifetchEndian = s.ifetchEndian := rfl

@[simp] theorem matchIntoField_crf_same :
    (s.matchIntoField bf creg m fmsk fmap).crf bf = mergeField m (match4 creg fmsk fmap) (s.crf bf) fmsk :=
  setCrf_crf_same s bf _

theorem matchIntoField_crf_other {k : FieldNum} (h : k ≠ bf) :
    (s.matchIntoField bf creg m fmsk fmap).crf k = s.crf k :=
  setCrf_crf_other s _ h

end

end Sys2Proof.Machine
end

