-- ==== Sys2Proof/Laws/Step.lean ====
section
/-! SUPPORT. What completing, executing and stepping can do, said once. -/

namespace Sys2Proof.Machine

/-! complete. -/

theorem complete_next {u : State} (h : u.pc ≠ topPc) : complete u = .next { u with pc := u.pc + 4 } := by
  simp [complete, h]

theorem complete_refused {u : State} (h : u.pc = topPc) : complete u = .refused .pcWrap := by
  simp [complete, h]

theorem complete_eq_next {u t : State} (h : complete u = .next t) :
    u.pc ≠ topPc ∧ t = { u with pc := u.pc + 4 } := by
  unfold complete at h
  split at h
  · cases h
  · rename_i hp
    injection h with h
    exact ⟨hp, h.symm⟩

/-- Adding 4 does not wrap at an aligned pc below the top. -/
theorem pc_add_four {a : Word} (ha : a.toNat % 4 = 0) (h : a ≠ topPc) : (a + 4).toNat = a.toNat + 4 := by
  have hlt := a.isLt
  have : a.toNat ≠ 0xFFFFFFFFFFFFFFFC := fun e => h (BitVec.eq_of_toNat_eq (by rw [e]; rfl))
  rw [BitVec.toNat_add]
  simp
  omega

/-! exec. -/

/-- Every meaning completes a state that differs from the old one only in x and cr. -/
theorem exec_complete (i : Instr) (s : State) :
    ∃ u, exec i s = complete u ∧ u.pc = s.pc ∧ u.xerSo = s.xerSo ∧ u.mem = s.mem ∧ u.enc = s.enc ∧
      u.baseIsa = s.baseIsa ∧ u.ifetchEndian = s.ifetchEndian := by
  cases i <;> exact ⟨_, rfl, rfl, rfl, rfl, rfl, rfl, rfl⟩

/-- What a next state of `exec` is, outside x and cr. -/
theorem exec_next_frame {i : Instr} {s t : State} (h : exec i s = .next t) :
    s.pc ≠ topPc ∧ t.pc = s.pc + 4 ∧ t.xerSo = s.xerSo ∧ t.mem = s.mem ∧ t.enc = s.enc ∧
      t.baseIsa = s.baseIsa ∧ t.ifetchEndian = s.ifetchEndian := by
  obtain ⟨u, he, hp, hx, hm, hn, hb, hf⟩ := exec_complete i s
  obtain ⟨hu, rfl⟩ := complete_eq_next (he ▸ h)
  exact ⟨hp ▸ hu, congrArg (· + 4) hp, hx, hm, hn, hb, hf⟩

/-! Exchanging two registers. -/

section
variable (r r' : GprNum) (s : State)

@[simp] theorem swapGprs_cr : (s.swapGprs r r').cr = s.cr := rfl
@[simp] theorem swapGprs_crf (k : FieldNum) : (s.swapGprs r r').crf k = s.crf k := rfl
@[simp] theorem swapGprs_xerSo : (s.swapGprs r r').xerSo = s.xerSo := rfl
@[simp] theorem swapGprs_pc : (s.swapGprs r r').pc = s.pc := rfl

theorem swapGprs_record (v : Word) : (s.record v).swapGprs r r' = (s.swapGprs r r').record v := rfl

/-- What each register holds after the exchange. -/
@[simp] theorem swapGprs_gpr (k : GprNum) : (s.swapGprs r r').gpr k = s.gpr (swapNum r r' k) := by
  unfold State.swapGprs swapNum
  by_cases h' : k = r'
  · subst h'
    rw [setGpr_gpr_same]
    split <;> simp_all
  · rw [setGpr_gpr_other _ _ h']
    by_cases h : k = r
    · subst h; simp
    · rw [setGpr_gpr_other _ _ h]; simp [h, h']

theorem swapNum_swapNum (k : GprNum) : swapNum r r' (swapNum r r' k) = k := by
  unfold swapNum; split <;> split <;> simp_all

/-- The exchange of nonzero numbers leaves 0, and only 0, at 0. -/
theorem swapNum_eq_zero {r r' : GprNum} (h : r ≠ 0) (h' : r' ≠ 0) (k : GprNum) : swapNum r r' k = 0 ↔ k = 0 := by
  unfold swapNum; split <;> [skip; split] <;> simp_all

/-- A register write commutes with the exchange, its number renamed. -/
theorem swapGprs_setGpr (k : GprNum) (v : Word) :
    (s.setGpr k v).swapGprs r r' = (s.swapGprs r r').setGpr (swapNum r r' k) v := by
  have hx : ((s.setGpr k v).swapGprs r r').x = ((s.swapGprs r r').setGpr (swapNum r r' k) v).x := by
    apply Vector.ext
    intro n hn
    show ((s.setGpr k v).swapGprs r r').gpr ⟨n, hn⟩ = ((s.swapGprs r r').setGpr (swapNum r r' k) v).gpr ⟨n, hn⟩
    rw [swapGprs_gpr]
    by_cases h : swapNum r r' ⟨n, hn⟩ = k
    · subst h; rw [swapNum_swapNum, setGpr_gpr_same, setGpr_gpr_same]
    · rw [setGpr_gpr_other _ _ h, setGpr_gpr_other, swapGprs_gpr]
      exact fun e => h (by rw [e, swapNum_swapNum])
  exact congrArg (fun x => { s with x := x }) hx

end

/-! Words (30_encoding.md R67). -/

theorem wordMatches_iff (e : Enc) (op : Op) (w : InstrWord) :
    WordMatches e op w ↔ matchesOp e (fieldsOfWord w) op = true := by
  rw [matchesOp_iff]
  simp only [WordMatches, fieldsOfWord, BitVec.toNat_inj.symm, extract_toNat]
  simp

theorem baseDisjoint_iff (e : Enc) (b : BaseIsa) : BaseDisjoint e b ↔ e.disjointFrom b = true := by
  simp only [disjointFrom_iff, BaseDisjoint, wordMatches_iff, Bool.not_eq_true]

/-- An empty BASE_ISA asks nothing of ENC. -/
theorem baseDisjoint_empty (e : Enc) : BaseDisjoint e ⟨[]⟩ := fun _ h => nomatch h

/-! step. -/

/-- A next state of `step` comes from the decoded instruction. -/
theorem step_next {s t : State} (h : step s = .next t) :
    s.pc.toNat % 4 = 0 ∧ ∃ w i, s.fetch = some w ∧ decode s.enc w = .instr i ∧ exec i s = .next t := by
  unfold step at h
  split at h
  · cases h
  · rename_i ha
    refine ⟨by simpa using ha, ?_⟩
    split at h
    · rename_i w hw
      unfold stepWord at h
      split at h
      · rename_i i hd
        exact ⟨w, i, hw, hd, h⟩
      all_goals cases h
    · unfold stepNoWord at h
      split at h <;> cases h

theorem step_aligned_word {s : State} {w : InstrWord} (ha : s.pc.toNat % 4 = 0) (hw : s.fetch = some w) :
    step s = stepWord w s := by
  simp [step, ha, hw]

theorem step_aligned_none {s : State} (ha : s.pc.toNat % 4 = 0) (hw : s.fetch = none) :
    step s = stepNoWord s := by
  simp [step, ha, hw]

/-- What `step` answers, every case. -/
theorem step_cases (s : State) :
    (s.pc.toNat % 4 ≠ 0 ∧ step s = .refused (.misalignedPc s.pc)) ∨
    (s.pc.toNat % 4 = 0 ∧ s.fetch = none ∧ step s = stepNoWord s) ∨
    (s.pc.toNat % 4 = 0 ∧ ∃ w, s.fetch = some w ∧
      ((∃ i, decode s.enc w = .instr i ∧ step s = exec i s) ∨
       (∃ op, decode s.enc w = .reserved op ∧ step s = .refused (.reservedBits op w)) ∨
       (decode s.enc w = .illegal ∧ step s = .fault (.illegalInstruction w)) ∨
       (decode s.enc w = .ambiguous ∧ step s = .refused (.ambiguousWord w)))) := by
  by_cases ha : s.pc.toNat % 4 = 0
  · cases hw : s.fetch with
    | none => exact .inr (.inl ⟨ha, rfl, step_aligned_none ha hw⟩)
    | some w =>
      refine .inr (.inr ⟨ha, w, rfl, ?_⟩)
      rw [step_aligned_word ha hw]
      unfold stepWord
      cases decode s.enc w with
      | instr i => exact .inl ⟨i, rfl, rfl⟩
      | reserved op => exact .inr (.inl ⟨op, rfl, rfl⟩)
      | illegal => exact .inr (.inr (.inl ⟨rfl, rfl⟩))
      | ambiguous => exact .inr (.inr (.inr ⟨rfl, rfl⟩))
  · exact .inl ⟨ha, by simp [step, ha]⟩

/-- A word placed by the host at an aligned pc is the word fetched. -/
theorem fetch_withFetchWord (s : State) (nbits w : Nat) (ha : s.pc.toNat % 4 = 0) :
    (s.withFetchWord nbits w).fetch = some (BitVec.ofNat 32 (w % 2 ^ nbits)) :=
  memWord_memWriteWord_same s.mem s.ifetchEndian s.pc _ ha

/-! Runs. -/

@[simp] theorem run_zero (s : State) : Sys2Proof.core.run 0 s = .next s := rfl

theorem run_succ_next {n : Nat} {s t : State} (h : step s = .next t) :
    Sys2Proof.core.run (n + 1) s = Sys2Proof.core.run n t := by
  have : Sys2Proof.core.step s = .next t := h
  simp only [Host.Core.run, this]

theorem run_succ_fault {n : Nat} {s : State} {r : Fault} (h : step s = .fault r) :
    Sys2Proof.core.run (n + 1) s = .fault r := by
  have : Sys2Proof.core.step s = .fault r := h
  simp only [Host.Core.run, this]

theorem run_succ_refused {n : Nat} {s : State} {r : Refusal} (h : step s = .refused r) :
    Sys2Proof.core.run (n + 1) s = .refused r := by
  have : Sys2Proof.core.step s = .refused r := h
  simp only [Host.Core.run, this]

end Sys2Proof.Machine
end

