-- ==== Sys2Proof/Laws/Meanings.lean ====
section
/-! SUPPORT. The flag computations and operand forms bit by bit. -/

namespace Sys2Proof.Machine

theorem match4_getLsbD (creg fmsk fmap : Nibble) (j : Nat) :
    (match4 creg fmsk fmap).getLsbD j = matchBit creg fmsk fmap j := by
  by_cases hj : j < 4
  · simp only [match4, matchBit, BitVec.getLsbD_and, BitVec.getLsbD_xor, BitVec.getLsbD_not, hj, decide_true,
      Bool.true_and]
    cases fmsk.getLsbD j <;> cases creg.getLsbD j <;> cases fmap.getLsbD j <;> rfl
  · simp [match4, matchBit, BitVec.getLsbD_of_ge _ _ (Nat.le_of_not_lt hj)]

theorem nibble_ext {a b : Nibble} (h : ∀ j, j < 4 → a.getLsbD j = b.getLsbD j) : a = b :=
  BitVec.eq_of_getLsbD_eq h

/-- The one-bit answer is the test of 40_cr_to_gpr.md R80. -/
theorem testField_iff (m : Bool) (creg fmsk fmap : Nibble) :
    testField m creg fmsk fmap = true ↔ TestHolds m creg fmsk fmap := by
  cases m
  · simp only [testField, TestHolds, Bool.false_eq_true, if_false, beq_iff_eq, false_and, false_or, true_and]
    constructor
    · intro h j hj hs
      have := congrArg (fun v => BitVec.getLsbD v j) h
      simp only [match4_getLsbD, matchBit, hs, Bool.true_and] at this
      simpa using this
    · intro h
      apply nibble_ext
      intro j hj
      rw [match4_getLsbD, matchBit]
      cases hs : fmsk.getLsbD j
      · rfl
      · simp [h j hj hs]
  · simp only [testField, TestHolds, if_true, bne_iff_ne, ne_eq, true_and, Bool.true_eq_false, false_and, or_false]
    constructor
    · intro h
      by_contra hn
      apply h
      apply nibble_ext
      intro j hj
      rw [match4_getLsbD, matchBit, show BitVec.getLsbD (0 : Nibble) j = false by simp]
      cases hs : fmsk.getLsbD j
      · rfl
      · have : creg.getLsbD j ≠ fmap.getLsbD j := fun e => hn ⟨j, hj, hs, e⟩
        simp [this]
    · rintro ⟨j, hj, hs, he⟩ h0
      have := congrArg (fun v => BitVec.getLsbD v j) h0
      simp [match4_getLsbD, matchBit, hs, he] at this

@[simp] theorem wordOfBit_true : wordOfBit true = 1 := rfl
@[simp] theorem wordOfBit_false : wordOfBit false = 0 := rfl

@[simp] theorem wordOfNibble_getLsbD (n : Nibble) (j : Nat) : (wordOfNibble n).getLsbD j = n.getLsbD j := by
  by_cases hj : j < 64
  · simp [wordOfNibble, hj]
  · rw [BitVec.getLsbD_of_ge _ _ (Nat.le_of_not_lt hj), BitVec.getLsbD_of_ge _ _ (by omega)]

@[simp] theorem lowNibble_getLsbD (a : Word) (j : Nat) :
    (lowNibble a).getLsbD j = (decide (j < 4) && a.getLsbD j) := by
  simp [lowNibble]

theorem lowBitFourTimes_getLsbD (a : Word) (j : Nat) :
    (lowBitFourTimes a).getLsbD j = (decide (j < 4) && a.getLsbD 0) := by
  unfold lowBitFourTimes
  cases a.getLsbD 0
  · simp
  · by_cases hj : j < 4
    · interval_cases j <;> rfl
    · rw [if_pos rfl, decide_eq_false hj, BitVec.getLsbD_of_ge _ _ (Nat.le_of_not_lt hj), Bool.false_and]

/-- The merge of 41_gpr_to_cr.md R90: selected bits from the match, the others kept with M and 0 without. -/
theorem mergeField_match_getLsbD (m : Bool) (creg old fmsk fmap : Nibble) {j : Nat} (hj : j < 4) :
    (mergeField m (match4 creg fmsk fmap) old fmsk).getLsbD j =
      if fmsk.getLsbD j then creg.getLsbD j == fmap.getLsbD j else m && old.getLsbD j := by
  cases m <;> simp only [mergeField, Bool.false_eq_true, if_false, if_true, BitVec.getLsbD_or, BitVec.getLsbD_and,
    BitVec.getLsbD_not, match4_getLsbD, matchBit, hj, decide_true, Bool.true_and] <;>
    cases fmsk.getLsbD j <;> simp

/-- analyse on what the recording forms give it (00_scope.md R13). -/
theorem analyse_toNat_of_lt (v : Word) (so : Bool) (h : v.toNat < 2 ^ 63) :
    (analyse v so).toNat = (if v = 0 then 2 else 4) + so.toNat := by
  have h0 : v.slt 0 = false := by
    rw [BitVec.slt_eq_decide, BitVec.toInt_eq_toNat_of_lt (by omega)]
    simp
  have h1 : (0 : Word).slt v = !decide (v = 0) := by
    rw [BitVec.slt_eq_decide, BitVec.toInt_eq_toNat_of_lt (x := v) (by omega)]
    by_cases hv : v = 0
    · subst hv; rfl
    · have : v.toNat ≠ 0 := fun e => hv (BitVec.eq_of_toNat_eq (by simpa using e))
      rw [show (0 : Word).toInt = 0 from rfl, decide_eq_true (by omega), decide_eq_false hv]
      rfl
  unfold analyse
  rw [h0, h1]
  by_cases hv : v = 0
  · subst hv; cases so <;> rfl
  · rw [decide_eq_false hv, if_neg hv, show (v == 0) = false by simpa using hv]
    cases so <;> rfl

/-- What `crrweird.` records (40_cr_to_gpr.md R81). -/
theorem analyse_wordOfBit (b so : Bool) : (analyse (wordOfBit b) so).toNat = (if b then 4 else 2) + so.toNat := by
  cases b <;> cases so <;> decide

/-- What `mfcrrweird.` records (40_cr_to_gpr.md R84). -/
theorem analyse_wordOfNibble (n : Nibble) (so : Bool) :
    (analyse (wordOfNibble n) so).toNat = (if wordOfNibble n = 0 then 2 else 4) + so.toNat := by
  apply analyse_toNat_of_lt
  have := n.isLt
  rw [wordOfNibble, BitVec.toNat_setWidth]
  omega

@[simp] theorem ra0_zero (s : State) : s.ra0 0 = 0 := rfl

theorem ra0_getLsbD (s : State) (ra : GprNum) (j : Nat) :
    (s.ra0 ra).getLsbD j = (!decide (ra = 0) && (s.gpr ra).getLsbD j) := by
  by_cases h : ra = 0 <;> simp [State.ra0, h]

theorem matchBit_of_ge (creg fmsk fmap : Nibble) {j : Nat} (h : 4 ≤ j) : matchBit creg fmsk fmap j = false := by
  rw [matchBit, BitVec.getLsbD_of_ge fmsk j h, Bool.false_and]

/-- The per-bit table of 42_cr_to_cr.md R100. -/
theorem mcrfmValue_getLsbD (s : State) (bf bfa : FieldNum) (m : Bool) (fmsk fmap : Nibble) {j : Nat} (hj : j < 4) :
    (mcrfmValue s bf bfa m fmsk fmap).getLsbD j =
      ((if fmsk.getLsbD j then (s.crf bfa).getLsbD j else m && (s.crf bf).getLsbD j) != fmap.getLsbD j) := by
  cases m <;> simp only [mcrfmValue, mergeField, Bool.false_eq_true, if_false, if_true, BitVec.getLsbD_or,
    BitVec.getLsbD_and, BitVec.getLsbD_xor, BitVec.getLsbD_not, hj, decide_true, Bool.true_and, Bool.false_and] <;>
    cases fmsk.getLsbD j <;> simp

end Sys2Proof.Machine
end

