-- ==== Sys2Proof/Laws/PerInstr.lean ====
section
/-! SUPPORT. Two statements about the syntax of every instruction: its word's fields match and read back as it, and its
assembly line is well formed and assembles to it. -/

namespace Sys2Proof.Laws

/-- The fields of the word match the instruction's record, set no reserved bit, and read back as its core
instruction (30_encoding.md R56, R60, R67). -/
def Fields.Statement (i : Instr) : Prop :=
  ∀ e : Enc, matchesOp e (fieldsOfInstr e i) (opOf i) = true ∧ reservedSet (opOf i) (fieldsOfInstr e i) = false ∧
    readOperands (opOf i) (fieldsOfInstr e i) = coreOf i

theorem Fields.crrweird (rt : GprNum) (bfa : FieldNum) (m : Bool) (fmsk : Nibble) (fmap : Nibble) :
    Fields.Statement (.crrweird rt bfa m fmsk fmap) := fun e => by
  simp [matchesOp, reservedSet, readOperands, fieldsOfInstr, fieldsWith, opOf, coreOf, Enc.opcode, Enc.b31]

theorem Fields.crrweirdRc (rt : GprNum) (bfa : FieldNum) (m : Bool) (fmsk : Nibble) (fmap : Nibble) :
    Fields.Statement (.crrweirdRc rt bfa m fmsk fmap) := fun e => by
  simp [matchesOp, reservedSet, readOperands, fieldsOfInstr, fieldsWith, opOf, coreOf, Enc.opcode, Enc.b31]

theorem Fields.mfcrrweird (rt : GprNum) (bfa : FieldNum) (fmsk : Nibble) (fmap : Nibble) :
    Fields.Statement (.mfcrrweird rt bfa fmsk fmap) := fun e => by
  simp [matchesOp, reservedSet, readOperands, fieldsOfInstr, fieldsWith, opOf, coreOf, Enc.opcode, Enc.b31]

theorem Fields.mfcrrweirdRc (rt : GprNum) (bfa : FieldNum) (fmsk : Nibble) (fmap : Nibble) :
    Fields.Statement (.mfcrrweirdRc rt bfa fmsk fmap) := fun e => by
  simp [matchesOp, reservedSet, readOperands, fieldsOfInstr, fieldsWith, opOf, coreOf, Enc.opcode, Enc.b31]

theorem Fields.mtcrrweird (bf : FieldNum) (ra : GprNum) (m : Bool) (fmsk : Nibble) (fmap : Nibble) :
    Fields.Statement (.mtcrrweird bf ra m fmsk fmap) := fun e => by
  simp [matchesOp, reservedSet, readOperands, fieldsOfInstr, fieldsWith, opOf, coreOf, Enc.opcode, Enc.b31]

theorem Fields.mtcrweird (bf : FieldNum) (ra : GprNum) (m : Bool) (fmsk : Nibble) (fmap : Nibble) :
    Fields.Statement (.mtcrweird bf ra m fmsk fmap) := fun e => by
  simp [matchesOp, reservedSet, readOperands, fieldsOfInstr, fieldsWith, opOf, coreOf, Enc.opcode, Enc.b31]

theorem Fields.mcrfm (bf : FieldNum) (bfa : FieldNum) (m : Bool) (fmsk : Nibble) (fmap : Nibble) :
    Fields.Statement (.mcrfm bf bfa m fmsk fmap) := fun e => by
  simp [matchesOp, reservedSet, readOperands, fieldsOfInstr, fieldsWith, opOf, coreOf, Enc.opcode, Enc.b31]

theorem Fields.crweirder (bt : CrBitNum) (bfa : FieldNum) (m : Bool) (fmsk : Nibble) (fmap : Nibble) :
    Fields.Statement (.crweirder bt bfa m fmsk fmap) := fun e => by
  simp [matchesOp, reservedSet, readOperands, fieldsOfInstr, fieldsWith, opOf, coreOf, Enc.opcode, Enc.b31]

theorem Fields.mtcri (bf : FieldNum) (fmap : Nibble) :
    Fields.Statement (.mtcri bf fmap) := fun e => by
  simp [matchesOp, reservedSet, readOperands, fieldsOfInstr, fieldsWith, opOf, coreOf, Enc.opcode, Enc.b31]

theorem Fields.mtcrset (bf : FieldNum) (fmsk : Nibble) :
    Fields.Statement (.mtcrset bf fmsk) := fun e => by
  simp [matchesOp, reservedSet, readOperands, fieldsOfInstr, fieldsWith, opOf, coreOf, Enc.opcode, Enc.b31]

theorem Fields.mtcrclr (bf : FieldNum) (fmsk : Nibble) :
    Fields.Statement (.mtcrclr bf fmsk) := fun e => by
  simp [matchesOp, reservedSet, readOperands, fieldsOfInstr, fieldsWith, opOf, coreOf, Enc.opcode, Enc.b31]

theorem nibble_lt (v : Nibble) : v.toNat < 16 := v.isLt

/-- The line that writes the instruction out is well formed and assembles to it (30_encoding.md R55, R64, R65, R66). -/
def Line.Statement (i : Instr) : Prop := i.line.wellFormed = true ∧ i.line.assemble = some i

theorem Line.crrweird (rt : GprNum) (bfa : FieldNum) (m : Bool) (fmsk : Nibble) (fmap : Nibble) :
    Line.Statement (.crrweird rt bfa m fmsk fmap) := by
  simp [Line.Statement, Instr.line, AsmLine.assemble, AsmLine.wellFormed, Mnemonic.operands, OperandKind.bound,
    nibble_lt, Bool.toNat_le]

theorem Line.crrweirdRc (rt : GprNum) (bfa : FieldNum) (m : Bool) (fmsk : Nibble) (fmap : Nibble) :
    Line.Statement (.crrweirdRc rt bfa m fmsk fmap) := by
  simp [Line.Statement, Instr.line, AsmLine.assemble, AsmLine.wellFormed, Mnemonic.operands, OperandKind.bound,
    nibble_lt, Bool.toNat_le]

theorem Line.mfcrrweird (rt : GprNum) (bfa : FieldNum) (fmsk : Nibble) (fmap : Nibble) :
    Line.Statement (.mfcrrweird rt bfa fmsk fmap) := by
  simp [Line.Statement, Instr.line, AsmLine.assemble, AsmLine.wellFormed, Mnemonic.operands, OperandKind.bound,
    nibble_lt]

theorem Line.mfcrrweirdRc (rt : GprNum) (bfa : FieldNum) (fmsk : Nibble) (fmap : Nibble) :
    Line.Statement (.mfcrrweirdRc rt bfa fmsk fmap) := by
  simp [Line.Statement, Instr.line, AsmLine.assemble, AsmLine.wellFormed, Mnemonic.operands, OperandKind.bound,
    nibble_lt]

theorem Line.mtcrrweird (bf : FieldNum) (ra : GprNum) (m : Bool) (fmsk : Nibble) (fmap : Nibble) :
    Line.Statement (.mtcrrweird bf ra m fmsk fmap) := by
  simp [Line.Statement, Instr.line, AsmLine.assemble, AsmLine.wellFormed, Mnemonic.operands, OperandKind.bound,
    nibble_lt, Bool.toNat_le]

theorem Line.mtcrweird (bf : FieldNum) (ra : GprNum) (m : Bool) (fmsk : Nibble) (fmap : Nibble) :
    Line.Statement (.mtcrweird bf ra m fmsk fmap) := by
  simp [Line.Statement, Instr.line, AsmLine.assemble, AsmLine.wellFormed, Mnemonic.operands, OperandKind.bound,
    nibble_lt, Bool.toNat_le]

theorem Line.mcrfm (bf : FieldNum) (bfa : FieldNum) (m : Bool) (fmsk : Nibble) (fmap : Nibble) :
    Line.Statement (.mcrfm bf bfa m fmsk fmap) := by
  simp [Line.Statement, Instr.line, AsmLine.assemble, AsmLine.wellFormed, Mnemonic.operands, OperandKind.bound,
    nibble_lt, Bool.toNat_le]

theorem Line.crweirder (bt : CrBitNum) (bfa : FieldNum) (m : Bool) (fmsk : Nibble) (fmap : Nibble) :
    Line.Statement (.crweirder bt bfa m fmsk fmap) := by
  simp [Line.Statement, Instr.line, AsmLine.assemble, AsmLine.wellFormed, Mnemonic.operands, OperandKind.bound,
    nibble_lt, Bool.toNat_le]

theorem Line.mtcri (bf : FieldNum) (fmap : Nibble) :
    Line.Statement (.mtcri bf fmap) := by
  simp [Line.Statement, Instr.line, AsmLine.assemble, AsmLine.wellFormed, Mnemonic.operands, OperandKind.bound,
    nibble_lt]

theorem Line.mtcrset (bf : FieldNum) (fmsk : Nibble) :
    Line.Statement (.mtcrset bf fmsk) := by
  simp [Line.Statement, Instr.line, AsmLine.assemble, AsmLine.wellFormed, Mnemonic.operands, OperandKind.bound,
    nibble_lt]

theorem Line.mtcrclr (bf : FieldNum) (fmsk : Nibble) :
    Line.Statement (.mtcrclr bf fmsk) := by
  simp [Line.Statement, Instr.line, AsmLine.assemble, AsmLine.wellFormed, Mnemonic.operands, OperandKind.bound,
    nibble_lt]

end Sys2Proof.Laws
end

