-- ==== Sys2Proof/Laws/Vectorized.lean ====
section
/-! SUPPORT. The arrays of the prefixed loops and a register bit by bit (45_vectorized.md). -/

namespace Sys2Proof.Machine

/-! Bits and nibbles of a register. -/

theorem wordOfBit_getLsbD (b : Bool) (i : Nat) : (wordOfBit b).getLsbD i = (decide (i = 0) && b) := by
  cases i <;> cases b <;> simp [wordOfBit]

theorem lowBits_getLsbD (k : Nat) (v : Word) (i : Nat) :
    (lowBits k v).getLsbD i = (decide (i < k) && v.getLsbD i) := by
  by_cases hi : i < 64
  · rw [lowBits, BitVec.getLsbD_and, BitVec.getLsbD_ofNat, Nat.testBit_two_pow_sub_one, decide_eq_true hi,
      Bool.true_and, Bool.and_comm]
  · rw [BitVec.getLsbD_of_ge _ _ (by omega), BitVec.getLsbD_of_ge v _ (by omega), Bool.and_false]

theorem putBit_getLsbD (v : Word) {j : Nat} (b : Bool) (hj : j < 64) (i : Nat) :
    (putBit v j b).getLsbD i = if i = j then b else v.getLsbD i := by
  by_cases hi : i < 64
  · simp only [putBit, BitVec.getLsbD_or, BitVec.getLsbD_and, BitVec.getLsbD_not, BitVec.getLsbD_shiftLeft,
      BitVec.getLsbD_one, wordOfBit_getLsbD, hi, decide_true, Bool.true_and]
    by_cases h : i = j
    · simp [h]
    · by_cases h1 : i < j
      · simp [h, h1]
      · have h2 : i - j ≠ 0 := by omega
        simp [h, h1, h2]
  · rw [BitVec.getLsbD_of_ge _ _ (by omega), if_neg (by omega), BitVec.getLsbD_of_ge _ _ (by omega)]

theorem wordNibbleMask_getLsbD (i : Nat) : (0xF#64).getLsbD i = decide (i < 4) := by
  by_cases hi : i < 64
  · interval_cases i <;> decide
  · rw [BitVec.getLsbD_of_ge _ _ (by omega), decide_eq_false (by omega)]

theorem putNibble_getLsbD (v : Word) {j : Nat} (n : Nibble) (hj : j < 16) (i : Nat) :
    (putNibble v j n).getLsbD i = if i / 4 = j then n.getLsbD (i % 4) else v.getLsbD i := by
  by_cases hi : i < 64
  · simp only [putNibble, BitVec.getLsbD_or, BitVec.getLsbD_and, BitVec.getLsbD_not, BitVec.getLsbD_shiftLeft,
      wordNibbleMask_getLsbD, wordOfNibble_getLsbD, hi, decide_true, Bool.true_and]
    by_cases h : i / 4 = j
    · have h1 : ¬ i < 4 * j := by omega
      have h2 : i - 4 * j < 4 := by omega
      have h3 : i - 4 * j = i % 4 := by omega
      rw [if_pos h, decide_eq_false h1, decide_eq_true h2, h3]
      simp
    · rw [if_neg h]
      by_cases h1 : i < 4 * j
      · simp [h1]
      · have h2 : ¬ i - 4 * j < 4 := by omega
        rw [decide_eq_false h1, decide_eq_false h2, BitVec.getLsbD_of_ge n _ (by omega)]
        simp
  · rw [BitVec.getLsbD_of_ge _ _ (by omega), if_neg (by omega), BitVec.getLsbD_of_ge _ _ (by omega)]

/-! The arrays. -/

@[simp] theorem SvArrays.setGpr_crf (a : SvArrays) (n : Nat) (v : Word) : (a.setGpr n v).crf = a.crf := rfl

@[simp] theorem SvArrays.setGpr_field (a : SvArrays) (n k : Nat) (v : Word) : (a.setGpr n v).field k = a.field k := rfl

@[simp] theorem SvArrays.setGpr_length (a : SvArrays) (n : Nat) (v : Word) :
    (a.setGpr n v).x.length = a.x.length := by
  simp [SvArrays.setGpr]

theorem SvArrays.setGpr_gpr_same (a : SvArrays) {n : Nat} (v : Word) (h : n < a.x.length) :
    (a.setGpr n v).gpr n = v := by
  simp [SvArrays.setGpr, SvArrays.gpr, h]

theorem SvArrays.setGpr_gpr_other (a : SvArrays) {n q : Nat} (v : Word) (h : q ≠ n) :
    (a.setGpr n v).gpr q = a.gpr q := by
  simp [SvArrays.setGpr, SvArrays.gpr, List.getD, List.getElem?_set_ne (Ne.symm h)]

/-! Taking the arrays into the scalar state, field by field (10_state.md R31). -/

theorem withSvArrays_cr (s : State) (a : SvArrays) :
    (s.withSvArrays a).cr = (List.finRange 8).foldl (fun cr k => crfPut cr k (a.field k.val)) s.cr := by
  rw [State.withSvArrays]
theorem withSvArrays_x (s : State) (a : SvArrays) : (s.withSvArrays a).x = Vector.ofFn fun i => a.gpr i.val := by
  rw [State.withSvArrays]
@[simp] theorem withSvArrays_xerSo (s : State) (a : SvArrays) : (s.withSvArrays a).xerSo = s.xerSo := by
  rw [State.withSvArrays]
@[simp] theorem withSvArrays_pc (s : State) (a : SvArrays) : (s.withSvArrays a).pc = s.pc := by
  rw [State.withSvArrays]
@[simp] theorem withSvArrays_mem (s : State) (a : SvArrays) : (s.withSvArrays a).mem = s.mem := by
  rw [State.withSvArrays]
@[simp] theorem withSvArrays_enc (s : State) (a : SvArrays) : (s.withSvArrays a).enc = s.enc := by
  rw [State.withSvArrays]
@[simp] theorem withSvArrays_baseIsa (s : State) (a : SvArrays) : (s.withSvArrays a).baseIsa = s.baseIsa := by
  rw [State.withSvArrays]
@[simp] theorem withSvArrays_ifetchEndian (s : State) (a : SvArrays) :
    (s.withSvArrays a).ifetchEndian = s.ifetchEndian := by
  rw [State.withSvArrays]

/-! The loops: the source arrays stay, and the range check is what its name says. -/

theorem svInRange_iff (c : SvContext) (a : SvArrays) (bb : Nat) (dest : Nat → Nat) :
    svInRange c a bb dest = true ↔ ∀ i ∈ svElements c, svSource c bb i < a.crf.length ∧ dest i < a.x.length := by
  simp [svInRange]

@[simp] theorem svCrrweirdElement_crf (c : SvContext) (rt bb : Nat) (m : Bool) (fmsk fmap : Nibble) (a : SvArrays)
    (i : Nat) : (svCrrweirdElement c rt bb m fmsk fmap a i).crf = a.crf := rfl

@[simp] theorem svCrrweirdElement_length (c : SvContext) (rt bb : Nat) (m : Bool) (fmsk fmap : Nibble) (a : SvArrays)
    (i : Nat) : (svCrrweirdElement c rt bb m fmsk fmap a i).x.length = a.x.length :=
  SvArrays.setGpr_length _ _ _

@[simp] theorem svMfcrrweirdElement_crf (c : SvContext) (rt bb : Nat) (fmsk fmap : Nibble) (a : SvArrays) (i : Nat) :
    (svMfcrrweirdElement c rt bb fmsk fmap a i).crf = a.crf := rfl

@[simp] theorem svMfcrrweirdElement_length (c : SvContext) (rt bb : Nat) (fmsk fmap : Nibble) (a : SvArrays)
    (i : Nat) : (svMfcrrweirdElement c rt bb fmsk fmap a i).x.length = a.x.length :=
  SvArrays.setGpr_length _ _ _

/-- What running a loop body over the first elements keeps, and what it establishes one element at a time. -/
theorem foldl_range_induction {α : Type} {f : α → Nat → α} {a : α} (P : Nat → α → Prop) {n : Nat} (h0 : P 0 a)
    (hs : ∀ k b, k < n → P k b → P (k + 1) (f b k)) : P n ((List.range n).foldl f a) := by
  induction n with
  | zero => exact h0
  | succ n ih =>
    rw [List.range_succ, List.foldl_append]
    exact hs n _ (Nat.lt_succ_self n) (ih fun k b hk => hs k b (Nat.lt_succ_of_lt hk))

end Sys2Proof.Machine
end

