-- ==== Sys2Proof/Tests/Slice0.lean ====
section
/-! SUPPORT. The model's own tests. Expected results are those of spec/95_test_vectors.md (V2 to V10, P1 to P6, S2, S3)
or are written out from the encoding tables of 30_encoding.md (R52, R53, R59); then, for each obligation with
hypotheses, a witness that meets them. -/

namespace Sys2Proof.Tests

open Sys2Proof.Machine

/-! Ill-formed input is refused, one term for each check of WellFormed.lean (30_encoding.md R55, R65). -/

theorem test_wellformed_line : (AsmLine.mk .crrweird [31, 7, 1, 15, 15]).assemble =
    some (.crrweird 31 7 true 0b1111 0b1111) := by decide
theorem test_missing_m_is_refused : (AsmLine.mk .crweirder [0, 1, 15, 15]).wellFormed = false := by decide
theorem test_extra_operand_is_refused : (AsmLine.mk .mfcrrweird [6, 5, 1, 15, 15]).wellFormed = false := by decide
theorem test_rt_32_is_refused : (AsmLine.mk .crrweird [32, 7, 1, 15, 15]).wellFormed = false := by decide
theorem test_bfa_8_is_refused : (AsmLine.mk .crrweird [31, 8, 1, 15, 15]).wellFormed = false := by decide
theorem test_m_2_is_refused : (AsmLine.mk .crrweird [31, 7, 2, 15, 15]).wellFormed = false := by decide
theorem test_fmsk_16_is_refused : (AsmLine.mk .crrweird [31, 7, 1, 16, 15]).wellFormed = false := by decide
theorem test_fmap_16_is_refused : (AsmLine.mk .crrweird [31, 7, 1, 15, 16]).wellFormed = false := by decide
theorem test_ra_32_is_refused : (AsmLine.mk .mtcrrweird [7, 32, 1, 15, 15]).wellFormed = false := by decide
theorem test_bf_8_is_refused : (AsmLine.mk .mtcri [8, 15]).wellFormed = false := by decide
theorem test_bt_32_is_refused : (AsmLine.mk .crweirder [32, 7, 1, 15, 15]).wellFormed = false := by decide

/-- Two equal triples break the one assumption on ENC (30_encoding.md R58). -/
theorem test_inadmissible_enc :
    ¬ Enc.Admissible { Config.encEx with crrweird := Config.encEx.mfcrrweird } := by decide

/-- Under such an ENC a word that matches both is refused by a name of its own. -/
theorem test_ambiguous_word :
    decode { Config.encEx with crrweird := Config.encEx.mfcrrweird } 0x14CFA7C2 = .ambiguous := by decide

/-- The mask and match columns of 30_encoding.md R59. -/
theorem test_masks_of_r59 : Op.all.map Config.encEx.opMask =
    [0xFC001C3E, 0xFC001C3E, 0xFC001C3F, 0xFC001C3F, 0xFC001C3F, 0xFC001C3F] := by decide
theorem test_matches_of_r59 : Op.all.map Config.encEx.opMatch =
    [0x14000002, 0x14000402, 0x14000802, 0x14000C02, 0x14001002, 0x14001402] := by decide

/-- The second assumption on ENC, against a BASE_ISA made up here: the words with PO 31, those with PO 5, and a row that
holds no word. -/
theorem test_base_isa_apart : Config.encEx.disjointFrom ⟨[⟨0xFC000000, 0x7C000000⟩, ⟨0, 1⟩]⟩ = true := by decide
theorem test_base_isa_overlap : Config.encEx.disjointFrom ⟨[⟨0xFC000000, 0x14000000⟩]⟩ = false := by decide

/-! Decoding: words written bit by bit, PO, bits 6 to 10, M, fmsk, bits 16 to 18, XOhi, fmap, XOlo, bit 31. -/

theorem test_decode_crrweird_v2_1 :
    decode Config.encEx 0b000101_00101_0_0011_010_000_0011_00001_0 = .instr (.crrweird 5 2 false 0b0011 0b0011) := by decide
theorem test_decode_crrweird_zeros :
    decode Config.encEx 0b000101_00000_0_0000_000_000_0000_00001_0 = .instr (.crrweird 0 0 false 0b0000 0b0000) := by decide
theorem test_decode_crrweirdRc_ones :
    decode Config.encEx 0b000101_11111_1_1111_111_000_1111_00001_1 = .instr (.crrweirdRc 31 7 true 0b1111 0b1111) := by decide
theorem test_decode_mfcrrweird_v3_1 :
    decode Config.encEx 0b000101_00110_0_1111_101_001_1111_00001_0 = .instr (.mfcrrweird 6 5 0b1111 0b1111) := by decide
theorem test_decode_mfcrrweirdRc_v3_7 :
    decode Config.encEx 0b000101_00110_0_0100_011_001_0000_00001_1 = .instr (.mfcrrweirdRc 6 3 0b0100 0b0000) := by decide
theorem test_decode_mtcrrweird_v4_1 :
    decode Config.encEx 0b000101_00100_1_1100_110_010_1111_00001_0 = .instr (.mtcrrweird 6 4 true 0b1100 0b1111) := by decide
theorem test_decode_mtcrweird_v5_1 :
    decode Config.encEx 0b000101_00100_0_0110_001_011_0101_00001_0 = .instr (.mtcrweird 1 4 false 0b0110 0b0101) := by decide
theorem test_decode_mcrfm_v7_1 :
    decode Config.encEx 0b000101_000_00_1_1100_111_100_0011_00001_0 = .instr (.mcrfm 0 7 true 0b1100 0b0011) := by decide
theorem test_decode_mcrfm_v7_10 :
    decode Config.encEx 0b000101_111_00_1_0001_001_100_0001_00001_0 = .instr (.mcrfm 7 1 true 0b0001 0b0001) := by decide
theorem test_decode_crweirder_v8_4 :
    decode Config.encEx 0b000101_01001_0_0011_010_101_0011_00001_0 = .instr (.crweirder 9 2 false 0b0011 0b0011) := by decide
theorem test_decode_mtcri_is_mtcrweird :
    decode Config.encEx 0b000101_00000_0_1111_010_011_0110_00001_0 = .instr (.mtcrweird 2 0 false 0b1111 0b0110) := by decide
theorem test_decode_mtcrset_is_mtcrweird :
    decode Config.encEx 0b000101_00000_1_0110_010_011_0000_00001_0 = .instr (.mtcrweird 2 0 true 0b0110 0b0000) := by decide
theorem test_decode_mtcrclr_is_mtcrweird :
    decode Config.encEx 0b000101_00000_1_0110_010_011_1111_00001_0 = .instr (.mtcrweird 2 0 true 0b0110 0b1111) := by decide
theorem test_decode_mfcrrweird_bit_11 :
    decode Config.encEx 0b000101_00110_1_1111_101_001_1111_00001_0 = .reserved .mfcrrweird := by decide
theorem test_decode_mcrfm_bit_10 :
    decode Config.encEx 0b000101_000_01_1_1100_111_100_0011_00001_0 = .reserved .mcrfm := by decide
theorem test_decode_mcrfm_bit_9 :
    decode Config.encEx 0b000101_000_10_1_1100_111_100_0011_00001_0 = .reserved .mcrfm := by decide
theorem test_decode_mtcrrweird_bit_31 :
    decode Config.encEx 0b000101_00100_1_1100_110_010_1111_00001_1 = .illegal := by decide
theorem test_decode_xohi_6 :
    decode Config.encEx 0b000101_00000_0_0000_000_110_0000_00001_0 = .illegal := by decide
theorem test_decode_xohi_7 :
    decode Config.encEx 0b000101_00000_0_0000_000_111_0000_00001_0 = .illegal := by decide
theorem test_decode_xolo_2 :
    decode Config.encEx 0b000101_00000_0_0000_000_000_0000_00010_0 = .illegal := by decide
theorem test_decode_po_6 :
    decode Config.encEx 0b000110_00000_0_0000_000_000_0000_00001_0 = .illegal := by decide
theorem test_decode_all_zeros :
    decode Config.encEx 0x00000000 = .illegal := by decide
theorem test_decode_all_ones :
    decode Config.encEx 0xFFFFFFFF = .illegal := by decide

/-! Encoding: the words of V2 to V8, and the pseudo-ops of V6. -/

theorem test_encode_crrweirdRc_v2_11 : encode Config.encEx (.crrweirdRc 5 3 true 0b1011 0b0100) = 0x14BB6103 := by decide
theorem test_encode_mtcrrweird_v4_9 : encode Config.encEx (.mtcrrweird 2 31 true 0b0101 0b0110) = 0x17F54982 := by decide
theorem test_encode_mcrfm_v7_3 : encode Config.encEx (.mcrfm 3 6 false 0b1111 0b0000) = 0x158FD002 := by decide
theorem test_encode_mtcri_v6_1 : encode Config.encEx (.mtcri 2 0b1001) = 0x140F4D82 := by decide
theorem test_encode_mtcrset_v6_4 : encode Config.encEx (.mtcrset 2 0b0110) = 0x14164C02 := by decide
theorem test_encode_mtcrclr_v6_7 : encode Config.encEx (.mtcrclr 2 0b0110) = 0x14164FC2 := by decide

/-- The bytes of the first word of P1 (95_test_vectors.md, "A program as bytes"), in both orders. -/
theorem test_bytes_big : bytesOfWord .big 0x140F0D42 = [0x14, 0x0F, 0x0D, 0x42] := by decide
theorem test_bytes_little : bytesOfWord .little 0x140F0D42 = [0x42, 0x0D, 0x0F, 0x14] := by decide
theorem test_three_bytes_are_no_word : decodeBytes Config.encEx .big [0x14, 0xA3, 0x40] = none := by decide
theorem test_decodeTableWord : decodeTableWord 32 0x14A340C2 = some (.crrweird 5 2 false 0b0011 0b0011) := by decide

/-! One step of each instruction from the vectors: the word at address 0, CR = 0x12345678. -/

/-- The start state of the vectors. -/
def start : State := { State.reset with cr := 0x12345678 }

/-- The same with another CR. -/
def startCr (cr : CrWord) : State := { State.reset with cr := cr }

/-- Whether an outcome is a next state with a property. -/
def nextWith (o : Host.Outcome State Fault Refusal) (p : State → Bool) : Bool :=
  match o with
  | .next t => p t
  | .fault _ => false
  | .refused _ => false

/-- One step of the word, from the state. -/
def stepOf (s : State) (w : Nat) (p : State → Bool) : Bool := nextWith (step (s.withFetchWord 32 w)) p

theorem test_step_crrweird_v2_3 :
    stepOf start 0x14B34042 (fun t => t.gpr 5 == 1 && t.cr == 0x12345678 && t.pc == 4) = true := by decide
theorem test_step_crrweird_v2_6 :
    stepOf (start.setGpr 5 0xFFFFFFFFFFFFFFFF) 0x14AF0002 (fun t => t.gpr 5 == 0 && t.cr == 0x12345678) = true := by decide
theorem test_step_crrweirdRc_v2_9 :
    stepOf start 0x14A10043 (fun t => t.gpr 5 == 1 && t.cr == 0x42345678) = true := by decide
theorem test_step_crrweirdRc_v2_10 :
    stepOf { start with xerSo := true } 0x14A10003 (fun t => t.gpr 5 == 0 && t.cr == 0x32345678) = true := by decide
theorem test_step_mfcrrweird_v3_2 :
    stepOf start 0x14CFA402 (fun t => t.gpr 6 == 9 && t.cr == 0x12345678) = true := by decide
theorem test_step_mfcrrweird_v3_3 :
    stepOf (start.setGpr 6 0xFFFFFFFFFFFFFFFF) 0x14C0A682 (fun t => t.gpr 6 == 0 && t.cr == 0x12345678) = true := by decide
theorem test_step_mfcrrweirdRc_v3_8 :
    stepOf start 0x14CF07C3 (fun t => t.gpr 6 == 1 && t.cr == 0x42345678) = true := by decide
theorem test_step_mfcrrweirdRc_v3_10 :
    stepOf { startCr 0x8421F00F with xerSo := true } 0x14CF87C3 (fun t => t.gpr 6 == 15 && t.cr == 0x5421F00F) = true := by decide
theorem test_step_mtcrrweird_v4_1 :
    stepOf (start.setGpr 4 0xFFFFFFFFFFFFFFFA) 0x149CCBC2 (fun t => t.cr == 0x123456B8) = true := by decide
theorem test_step_mtcrrweird_v4_3 :
    stepOf (start.setGpr 0 0xFFFFFFFFFFFFFFFF) 0x140F6802 (fun t => t.cr == 0x123F5678) = true := by decide
theorem test_step_mtcrweird_v5_3 :
    stepOf (start.setGpr 4 0xFFFFFFFFFFFFFFFE) 0x1499AE42 (fun t => t.cr == 0x12345678) = true := by decide
theorem test_step_mtcrweird_v5_4 :
    stepOf (start.setGpr 4 1) 0x1499AE42 (fun t => t.cr == 0x12345F78) = true := by decide
theorem test_step_mcrfm_v7_1 :
    stepOf start 0x141CF0C2 (fun t => t.cr == 0xA2345678) = true := by decide
theorem test_step_mcrfm_v7_2 :
    stepOf start 0x140CF0C2 (fun t => t.cr == 0xB2345678) = true := by decide
theorem test_step_crweirder_v8_3 :
    stepOf start 0x17E354C2 (fun t => t.cr == 0x12345679) = true := by decide
theorem test_step_crweirder_v8_5 :
    stepOf start 0x154F5402 (fun t => t.cr == 0x12145678) = true := by decide
theorem test_exec_mtcri_v6_1 : nextWith (exec (.mtcri 2 0b1001) start) (fun t => t.cr == 0x12945678) = true := by decide
theorem test_exec_mtcri_v6_2 : nextWith (exec (.mtcri 0 0b0000) start) (fun t => t.cr == 0x02345678) = true := by decide
theorem test_exec_mtcrset_v6_4 : nextWith (exec (.mtcrset 2 0b0110) start) (fun t => t.cr == 0x12745678) = true := by decide
theorem test_exec_mtcrset_v6_5 : nextWith (exec (.mtcrset 4 0b0000) start) (fun t => t.cr == 0x12345678) = true := by decide
theorem test_exec_mtcrclr_v6_7 : nextWith (exec (.mtcrclr 2 0b0110) start) (fun t => t.cr == 0x12145678) = true := by decide
theorem test_exec_mtcrclr_v6_8 : nextWith (exec (.mtcrclr 5 0b1111) start) (fun t => t.cr == 0x12345078) = true := by decide

/-- The vectors run in the little byte order too. -/
theorem test_step_little_endian :
    stepOf { start with ifetchEndian := .little } 0x14CFA402 (fun t => t.gpr 6 == 9) = true := by decide

/-! Where a step stops (P5, P6; 20_memory.md R41, R43; 10_state.md R26; 70_reset_and_hazards.md R153). -/

theorem test_p5_reserved_bit :
    step (start.withFetchWord 32 0x14FF67C2) = .refused (.reservedBits .mfcrrweird 0x14FF67C2) := rfl
theorem test_p6_illegal :
    step (start.withFetchWord 32 0x14001802) = .fault (.illegalInstruction 0x14001802) := rfl
theorem test_misaligned_pc : step { start with pc := 2 } = .refused (.misalignedPc 2) := rfl
theorem test_reset_has_no_program : step State.reset = .fault (.stuck 0) := rfl

/-- A word at the highest aligned address, with pc on it. -/
def top : State := { start with pc := topPc }.withFetchWord 32 0x14A340C2

theorem test_pc_wrap : step top = .refused .pcWrap := rfl

/-- A launch of the first two words of P2. -/
def params : LaunchParams where
  program := [(0, 0x14CFA7C2), (4, 0x14CF0BC2)]
  enc := Config.encEx
  baseIsa := ⟨[⟨0xFC000000, 0x7C000000⟩]⟩
  ifetchEndian := .big
  entry := 0
  x := Vector.replicate 32 7
  cr := 0x12345678
  xerSo := false

/-- The launch state. -/
def launched : State where
  x := Vector.replicate 32 7
  cr := 0x12345678
  xerSo := false
  pc := 0
  mem := loadProgram .big params.program
  enc := Config.encEx
  baseIsa := params.baseIsa
  ifetchEndian := .big

theorem test_launch : launch params = .next launched := rfl
theorem test_p2_first_step : nextWith (step launched) (fun t => t.gpr 6 == 6 && t.pc == 4) = true := by decide
theorem test_p2_second_step : nextWith (step (({ launched with pc := 4 }).setGpr 6 6))
    (fun t => t.cr == 0x62345678 && t.pc == 8) = true := by decide
theorem test_end_of_program : step { launched with pc := 8 } = .fault (.endOfProgram 8) := rfl
theorem test_stuck_past_the_end : step { launched with pc := 12 } = .fault (.stuck 12) := rfl
theorem test_launch_misaligned : launch { params with entry := 2 } = .refused .launchMisalignedEntry := rfl
theorem test_launch_no_word : launch { params with entry := 8 } = .refused .launchNoWordAtEntry := rfl
theorem test_launch_no_map :
    launch { params with program := [(0, 0), (0, 1)] } = .refused .launchNoProgram := rfl
theorem test_launch_inadmissible :
    launch { params with enc := { Config.encEx with crrweird := Config.encEx.mfcrrweird } } =
      .refused .launchInadmissibleEnc := rfl
theorem test_launch_base_isa_overlap :
    launch { params with baseIsa := ⟨[⟨0xFC000000, 0x14000000⟩]⟩ } = .refused .launchInadmissibleEnc := rfl

/-! The prefixed loops (V10, S2). -/

/-- The arrays of V10. -/
def v10 : SvArrays where
  crf := [8, 4, 2, 1, 15, 0, 0, 15, 3, 12, 5, 10]
  x := List.replicate 20 0 ++ [0xFFFFFFFFFFFFFF00, 0xFFFFFFFFFFFFFFFF, 0xFFFFFFFFFFFFFFFF, 0xFFFFFFFFFFFFFFFF] ++
    List.replicate 8 0
  crf_length := by decide
  x_length := by decide

/-- A context of V10: VL, RT.isvec, BB.elwidth, mapreduce; BB a vector. -/
def v10Context (vl : Nat) (rtIsVec : Bool) (bbElwidth : BitVec 2) (mapreduce : Bool) : SvContext :=
  { vl := vl, bbIsVec := true, rtIsVec := rtIsVec, bbElwidth := bbElwidth, rtElwidth := 0, mapreduce := mapreduce,
    draw := 0 }

/-- Whether a loop answers arrays with these registers from 20 on, the others as in V10. -/
def svEnds (o : Host.Outcome SvArrays Fault Refusal) (regs : List Word) : Bool :=
  match o with
  | .next b => b.crf == v10.crf && b.x == List.replicate 20 0 ++ regs ++ v10.x.drop (20 + regs.length)
  | .fault _ => false
  | .refused _ => false

theorem test_sv_crrweird_v10_1 :
    svEnds (svCrrweird 20 0 true 8 8 (v10Context 8 false 0 true) v10) [0xFFFFFFFFFFFFFF91] = true := by decide
theorem test_sv_crrweird_v10_2 :
    svEnds (svCrrweird 20 0 true 8 8 (v10Context 8 false 0 false) v10) [0xFFFFFFFFFFFFFF01] = true := by decide
theorem test_sv_crrweird_v10_5 :
    svEnds (svCrrweird 20 0 true 8 8 (v10Context 8 true 2 false) v10) [1, 9] = true := by decide
theorem test_sv_crrweird_v10_partial :
    svEnds (svCrrweird 20 0 true 8 8 { v10Context 6 true 2 false with draw := 0xF } v10) [1, 0xD] = true := by decide
theorem test_sv_mfcrrweird_v10_1 :
    svEnds (svMfcrrweird 20 0 15 15 (v10Context 4 false 0 true) v10) [0xFFFFFFFFFFFF1248] = true := by decide
theorem test_sv_mfcrrweird_v10_4 :
    svEnds (svMfcrrweird 20 0 15 15 (v10Context 12 true 3 false) v10) [0xF00F1248, 0xA5C3] = true := by decide
theorem test_sv_mfcrrweird_v10_6 :
    svEnds (svMfcrrweird 20 0 15 15 (v10Context 3 true 1 false) v10) [0x48, 2] = true := by decide
theorem test_sv_s2_row_11 : (List.range 8).map (svPackIndex 2 3) =
    [(0, 0), (0, 1), (0, 2), (0, 3), (1, 0), (1, 1), (1, 2), (1, 3)] := by decide
theorem test_sv_s2_row_01 : (List.range 8).map (svPackIndex 2 1) =
    [(0, 0), (0, 1), (1, 0), (1, 1), (2, 0), (2, 1), (3, 0), (3, 1)] := by decide
theorem test_sv_vl_65 : svCrrweird 20 0 true 8 8 (v10Context 65 false 0 true) v10 = .refused .svScalarTooLong := rfl
theorem test_sv_vl_17 : svMfcrrweird 20 0 15 15 (v10Context 17 false 0 true) v10 = .refused .svScalarTooLong := rfl
theorem test_sv_out_of_range :
    svCrrweird 32 0 true 8 8 (v10Context 1 true 0 false) v10 = .refused .svIndexOutOfRange := rfl

/-! Witnesses: for each obligation with hypotheses, values that meet them, at the ends of each range. -/

theorem witness_encEx_admissible : Config.encEx.Admissible := by decide

theorem witness_DecodeOfEncodeIsTheInstruction : Config.encEx.Admissible ∧
    decode Config.encEx (encode Config.encEx (.crweirder 31 7 true 15 15)) = .instr (.crweirder 31 7 true 15 15) := by
  decide

theorem witness_EncodeOfDecodeIsTheWord :
    decode Config.encEx 0x14CFA7C2 = .instr (.mfcrrweird 6 5 0b1111 0b1111) := by decide

theorem witness_AtMostOneInstructionMatches :
    Config.encEx.Admissible ∧ WordMatches Config.encEx .mfcrrweird 0x14CFA7C2 := by
  unfold WordMatches; decide

theorem witness_IllegalExactlyWhenNoInstructionMatches :
    decode Config.encEx 0x14001802 = .illegal ∧ WordMatches Config.encEx .mfcrrweird 0x14CFA7C2 := by
  unfold WordMatches; decide

theorem witness_ReservedExactlyWhenAReservedBitIsSet : Config.encEx.Admissible ∧
    (WordMatches Config.encEx .mfcrrweird 0x14DFA7C2 ∧ ReservedBitSet .mfcrrweird 0x14DFA7C2) ∧
    (WordMatches Config.encEx .mcrfm 0x143CF0C2 ∧ ReservedBitSet .mcrfm 0x143CF0C2) ∧
    (WordMatches Config.encEx .mcrfm 0x145CF0C2 ∧ ReservedBitSet .mcrfm 0x145CF0C2) := by
  unfold WordMatches ReservedBitSet; decide

/-- The clauses of the assembly statement at the ends of the ranges: 31 is a register, 32 is not. -/
theorem witness_AssemblyErrorExactlyWhenIllFormed :
    (AsmLine.mk .crrweird [31, 7, 1, 15, 15]).assemble ≠ none ∧ (AsmLine.mk .crrweird [32, 7, 1, 15, 15]).assemble = none ∧
      (AsmLine.mk .crrweird [31, 7, 1, 15]).assemble = none := by decide

/-- The CR statement at the first and last field and bit (95_test_vectors.md section 0 and V8). -/
theorem witness_CrFieldsAndBitsFollowTheNumbering :
    crfOf 0x12345678 0 = 1 ∧ crfOf 0x12345678 7 = 8 ∧ crBitOf 0x80000000 0 = true ∧ crBitOf 0x00000001 31 = true := by
  decide

/-- The three clauses of analyse, at -1, 1 and 0. -/
theorem witness_AnalyseComparesWithZero :
    analyse (-1) false = 0b1000 ∧ analyse 1 true = 0b0101 ∧ analyse 0 true = 0b0011 := by decide

/-- Both clauses of the test, for each M, on the fields of V1. -/
theorem witness_test_clauses :
    TestHolds false 0b1010 0b1100 0b1001 ∧ ¬ TestHolds false 0b0110 0b0110 0b0100 ∧
      TestHolds true 0b0110 0b0110 0b0100 ∧ ¬ TestHolds true 0b0000 0b0000 0b1111 := by
  simp only [← testField_iff]; decide

/-- Every result statement asks for one thing: pc is not 2^64 - 4. -/
theorem witness_start_pc : start.pc ≠ topPc := by decide

theorem witness_CrrweirdWritesTheTest :
    start.pc ≠ topPc ∧ nextWith (exec (.crrweird 5 2 true 0b0011 0b0001) start) (fun t => t.gpr 5 == 1) = true := by decide
theorem witness_CrrweirdRcWritesTheTestAndRecords :
    start.pc ≠ topPc ∧ nextWith (exec (.crrweirdRc 5 0 false 0b0001 0b0000) start) (fun t => t.gpr 5 == 0 && t.crf 0 == 2) = true := by decide
theorem witness_MfcrrweirdWritesTheMatchBits :
    start.pc ≠ topPc ∧ nextWith (exec (.mfcrrweird 31 7 0b1010 0b1010) start) (fun t => t.gpr 31 == 8) = true := by decide
theorem witness_MfcrrweirdRcWritesTheMatchBitsAndRecords :
    start.pc ≠ topPc ∧ nextWith (exec (.mfcrrweirdRc 0 1 0b0011 0b0001) start) (fun t => t.gpr 0 == 0 && t.crf 0 == 2) = true := by decide
theorem witness_MtcrrweirdWritesTheField :
    start.pc ≠ topPc ∧ nextWith (exec (.mtcrrweird 3 0 false 0b1111 0b0000) start) (fun t => t.crf 3 == 15) = true := by decide
theorem witness_MtcrweirdWritesTheField :
    start.pc ≠ topPc ∧ nextWith (exec (.mtcrweird 1 0 false 0b0011 0b0000) start) (fun t => t.crf 1 == 3) = true := by decide
theorem witness_McrfmWritesTheField :
    start.pc ≠ topPc ∧ nextWith (exec (.mcrfm 7 1 true 0b0001 0b0001) start) (fun t => t.crf 7 == 9) = true := by decide
theorem witness_CrweirderWritesTheBit :
    start.pc ≠ topPc ∧ nextWith (exec (.crweirder 31 2 false 0b0011 0b0011) start) (fun t => t.crBit 31) = true := by decide
theorem witness_MtcriLoadsTheField :
    start.pc ≠ topPc ∧ nextWith (exec (.mtcri 7 0b1111) start) (fun t => t.crf 7 == 15) = true := by decide
theorem witness_MtcrsetSetsTheSelectedBits :
    start.pc ≠ topPc ∧ nextWith (exec (.mtcrset 4 0b1111) start) (fun t => t.crf 4 == 15) = true := by decide
theorem witness_MtcrclrClearsTheSelectedBits :
    start.pc ≠ topPc ∧ nextWith (exec (.mtcrclr 5 0b1111) start) (fun t => t.crf 5 == 0) = true := by decide

/-- Two states with one CR and different registers. -/
theorem witness_CrrweirdReducesMfcrrweird :
    start.pc ≠ topPc ∧ launched.pc ≠ topPc ∧ start.cr = launched.cr ∧ start.x ≠ launched.x := by decide
theorem witness_CrweirderAgreesWithCrrweird :
    start.pc ≠ topPc ∧ launched.pc ≠ topPc ∧ start.cr = launched.cr ∧ start.x ≠ launched.x := by decide
theorem witness_EmptyMaskClearsOrKeeps : start.pc ≠ topPc ∧ start.crf 7 ≠ 0 := by decide
theorem witness_EmptyMaskLoadsAConstant : start.pc ≠ topPc := by decide
theorem witness_FieldTravelsThroughARegister :
    start.pc ≠ topPc ∧ start.pc + 4 ≠ topPc ∧ (1 : GprNum) ≠ 0 ∧ start.crf 5 ≠ 0 := by decide
theorem witness_InvertingTwiceRestores : start.pc ≠ topPc ∧ start.pc + 4 ≠ topPc := by decide
theorem witness_RaZeroReadsNoRegister : start.pc ≠ topPc ∧ start.x ≠ launched.x ∧
    Instr.mtcri 3 5 ∈ [Instr.mtcrrweird 3 0 true 6 5, .mtcrweird 3 0 true 6 5, .mtcri 3 5, .mtcrset 3 6,
      .mtcrclr 3 6] := by decide

/-- Two states whose CRs differ in field 3 alone; the source of mcrfm is field 6. -/
theorem witness_OverwriteDoesNotReadTheTarget : start.pc ≠ topPc ∧ (startCr 0x123F5678).pc ≠ topPc ∧
    start.x = (startCr 0x123F5678).x ∧ (∀ k, k ≠ 3 → start.crf k = (startCr 0x123F5678).crf k) ∧
    start.crf 3 ≠ (startCr 0x123F5678).crf 3 ∧ (6 : FieldNum) ≠ 3 := by decide

/-- Each row of the table: two states that agree on what the row reads and on nothing else of CR, and both complete. -/
theorem witness_CrIsSetAndReadByItsTable :
    start.x = (startCr 0xFF3FFFFF).x ∧ start.xerSo = (startCr 0xFF3FFFFF).xerSo ∧
      start.crf 2 = (startCr 0xFF3FFFFF).crf 2 ∧ start.crf 0 ≠ (startCr 0xFF3FFFFF).crf 0 ∧
      (true = true → start.crf 2 = (startCr 0xFF3FFFFF).crf 2) ∧
      (false = true → start.crf 0 = (startCr 0xFF3FFFFF).crf 0) ∧
      ∀ i ∈ [Instr.crrweird 5 2 true 3 1, .crrweirdRc 5 2 true 3 1, .mfcrrweird 5 2 3 1, .mfcrrweirdRc 5 2 3 1,
        .mtcrrweird 2 4 true 3 1, .mtcrweird 0 4 false 3 1, .mcrfm 0 2 false 3 1, .crweirder 31 2 true 3 1],
        nextWith (exec i start) (fun _ => true) = true ∧
          nextWith (exec i (startCr 0xFF3FFFFF)) (fun _ => true) = true := by decide

/-- A source whose low four bits are 1, and one whose low bit alone is; fmsk leaves bits out. -/
theorem witness_MtcrweirdRepeatsTheLowBit :
    nextWith (exec (.mtcrrweird 3 4 true 5 1) (start.setGpr 4 15)) (fun _ => true) = true ∧
      nextWith (exec (.mtcrweird 3 6 true 5 1) (start.setGpr 6 1)) (fun _ => true) = true ∧
      (start.setGpr 4 15).crf 3 = (start.setGpr 6 1).crf 3 ∧
      (∀ j, j < 4 → ((start.setGpr 4 15).ra0 4).getLsbD j = ((start.setGpr 6 1).ra0 6).getLsbD 0) ∧
      (5 : Nibble).getLsbD 1 = false := by decide

theorem witness_NoInstructionRaises : start.pc ≠ topPc := by decide
theorem witness_NoInstructionRaises_top : top.pc.toNat = 2 ^ 64 - 4 := by decide

theorem witness_MaskRegistersAreOrdinary : (4 : GprNum) ≠ 0 ∧
    ∀ i ∈ [Instr.crrweird 3 2 true 3 1, .mtcrrweird 0 10 true 3 1, .mtcrweird 0 31 true 3 1],
      nextWith (exec i (start.setGpr 4 9)) (fun _ => true) = true := by decide

/-- The last bit of field 7 is bit 31. -/
theorem witness_CrIsEightFieldsAndBtLiesInOne : (7 : FieldNum).val = (31 : CrBitNum).val / 4 ∧
    ¬ ((7 : FieldNum).val = (31 : CrBitNum).val / 4 ∧ 2 = (31 : CrBitNum).val % 4) ∧
    nextWith (exec (.crweirder 31 2 true 3 1) start) (fun _ => true) = true := by decide

/-- Two states that differ everywhere but in the one field crrweird reads. -/
theorem witness_OutcomeDependsOnlyOnWhatIsRead : start.pc ≠ topPc ∧ (startCr 0xFF3FFFFF).pc ≠ topPc ∧
    State.AgreeOn (readsOf (.crrweird 5 2 true 0b0011 0b0001)) start (startCr 0xFF3FFFFF) ∧
    start.crf 0 ≠ (startCr 0xFF3FFFFF).crf 0 := by
  unfold State.AgreeOn; decide

theorem witness_InstructionChangesOnlyWhatItWrites :
    (∃ t, exec (.crrweirdRc 5 2 true 0b0011 0b0001) start = .next t) ∧
      Loc.gpr 6 ∉ writesOf (.crrweirdRc 5 2 true 0b0011 0b0001) ∧
      Loc.field 1 ∉ writesOf (.crrweirdRc 5 2 true 0b0011 0b0001) ∧
      Loc.xerSo ∉ writesOf (.crrweirdRc 5 2 true 0b0011 0b0001) :=
  ⟨⟨_, rfl⟩, by decide, by decide, by decide⟩

theorem witness_StepRunsTheDecodedInstruction : launched.pc.toNat % 4 = 0 ∧ launched.fetch = some 0x14CFA7C2 ∧
    decode launched.enc 0x14CFA7C2 = .instr (.mfcrrweird 6 5 0b1111 0b1111) := by decide

/-- Both directions: a word that matches nothing, a word that matches, no word. -/
theorem witness_IllegalInstructionExactlyAtUnmatchedWords :
    (start.withFetchWord 32 0x14001802).pc.toNat % 4 = 0 ∧
      (start.withFetchWord 32 0x14001802).fetch = some 0x14001802 ∧
      decode start.enc 0x14001802 = .illegal ∧ launched.fetch = some 0x14CFA7C2 ∧ start.fetch = none := by decide

theorem witness_ReservedBitsRefuseTheStep :
    (start.withFetchWord 32 0x14FF67C2).pc.toNat % 4 = 0 ∧ start.enc.Admissible ∧
      (start.withFetchWord 32 0x14FF67C2).fetch = some 0x14FF67C2 ∧
      WordMatches start.enc .mfcrrweird 0x14FF67C2 ∧ ReservedBitSet .mfcrrweird 0x14FF67C2 := by
  unfold WordMatches ReservedBitSet; decide

theorem launched_wf : Memory.wf launched.mem := loadProgram_wf _ _

theorem launched_inv : launched.Inv :=
  ⟨by decide, launched_wf, by decide, (baseDisjoint_iff _ _).mpr (by decide)⟩

/-- Clause 1 at 4 past the last word, clause 2 one word further. -/
theorem witness_NoWordEndsTheRunOrSticks :
    (({ launched with pc := 8 } : State).Inv ∧ ({ launched with pc := 8 } : State).fetch = none ∧
      programEnd launched.mem = some 8) ∧
    (({ launched with pc := 12 } : State).Inv ∧ ({ launched with pc := 12 } : State).fetch = none ∧
      programEnd launched.mem ≠ some 12) :=
  ⟨⟨⟨by decide, launched_wf, by decide, launched_inv.base⟩, by decide, by decide⟩,
    ⟨⟨by decide, launched_wf, by decide, launched_inv.base⟩, by decide, by decide⟩⟩

/-- The bytes of P1's first word (95_test_vectors.md), in both orders, at an address and at none. -/
theorem witness_WordsLieInTheirByteOrder :
    memWord [(0, 0x14), (1, 0x0F), (2, 0x0D), (3, 0x42)] .big 0 = some 0x140F0D42 ∧
    memWord [(0, 0x42), (1, 0x0D), (2, 0x0F), (3, 0x14)] .little 0 = some 0x140F0D42 ∧
    memWord [(0, 0x42), (1, 0x0D), (2, 0x0F)] .little 0 = none := by decide

/-- A word of the BASE_ISA of `params`, at pc. -/
theorem witness_IllegalInstructionExactlyAtUnmatchedWords_base :
    (launched.withFetchWord 32 0x7C000214).Inv ∧
      (launched.withFetchWord 32 0x7C000214).fetch = some 0x7C000214 ∧
      (launched.withFetchWord 32 0x7C000214).baseIsa.has 0x7C000214 = true :=
  ⟨⟨by decide, withFetchWord_wf _ _ _ launched_wf, by decide, launched_inv.base⟩, by decide, by decide⟩

theorem witness_MisalignedPcIsRefused : ({ start with pc := 1 } : State).pc.toNat % 4 ≠ 0 := by decide

theorem witness_StepKeepsProgramAndXerSo : ∃ t, step launched = .next t := ⟨_, rfl⟩

theorem witness_EveryStepKeepsTheInvariant : launched.Inv ∧ ∃ t, step launched = .next t :=
  ⟨launched_inv, _, rfl⟩

theorem witness_LaunchHoldsTheProgram : launch params = .next launched ∧ 4 % 4 = 0 ∧
    ((4 : Word), (0x14CF0BC2 : InstrWord)) ∈ params.program := ⟨rfl, rfl, by decide⟩

/-- Every clause: a launch that meets every condition, a launch that answers, and a misaligned ENTRY. -/
theorem witness_LaunchStartsOrRefuses :
    (params.enc.Admissible ∧ BaseDisjoint params.enc params.baseIsa ∧ (∀ c ∈ params.program, c.1.toNat % 4 = 0) ∧ (params.program.map Prod.fst).Nodup ∧
      ∃ w, (params.entry, w) ∈ params.program) ∧
    launch params = .next launched ∧ ({ params with entry := 2 } : LaunchParams).entry.toNat % 4 ≠ 0 :=
  ⟨⟨by decide, launched_inv.base, by simp [params], by decide, 0x14CFA7C2, by decide⟩, rfl, by decide⟩

theorem witness_RunMovesPcByFourPerStep : ∃ t, Sys2Proof.core.run 2 launched = .next t := ⟨_, rfl⟩

/-- Two words from pc, both instructions, and the program ends after them. -/
theorem witness_StraightLineProgramTakesNSteps : launched.Inv ∧ launched.pc.toNat + 4 * 2 < 2 ^ 64 ∧
    (∀ k, k < 2 → launched.HoldsInstr k) ∧ programEnd launched.mem = some (launched.pc.toNat + 4 * 2) := by
  refine ⟨launched_inv, by decide, fun k hk => ?_, by decide⟩
  interval_cases k
  · exact ⟨0x14CFA7C2, .mfcrrweird 6 5 15 15, by decide, by decide⟩
  · exact ⟨0x14CF0BC2, .mtcrrweird 0 6 false 15 15, by decide, by decide⟩

/-- Arrays of 96 fields and 96 registers. -/
def bigArrays : SvArrays where
  crf := List.replicate 96 5
  x := List.replicate 96 1
  crf_length := by simp
  x_length := by simp

/-- A scalar RT: with mapreduce at VL 64, the last that is defined, and without at VL 100. -/
theorem witness_SvCrrweirdScalarInsertsBits :
    ((v10Context 64 false 0 true).rtElwidth = 0 ∧ (v10Context 64 false 0 true).rtIsVec = false ∧
      64 = (if (v10Context 64 false 0 true).mapreduce then (v10Context 64 false 0 true).vl
        else min (v10Context 64 false 0 true).vl 1) ∧
      95 < bigArrays.x.length ∧ (∀ i, i < 64 → svSource (v10Context 64 false 0 true) 32 i < bigArrays.crf.length)) ∧
    1 = (if (v10Context 100 false 0 false).mapreduce then (v10Context 100 false 0 false).vl
        else min (v10Context 100 false 0 false).vl 1) := by
  refine ⟨⟨rfl, rfl, rfl, by simp [bigArrays], fun i hi => ?_⟩, by simp [v10Context]⟩
  simp only [svSource, v10Context, bigArrays, List.length_replicate, if_true]
  omega

/-- A vector RT, VL 6, four results to a register: the last register is half full. -/
theorem witness_SvCrrweirdVectorPacksBits :
    (v10Context 6 true 2 false).rtElwidth = 0 ∧ (v10Context 6 true 2 false).rtIsVec = true ∧
      (∀ i, i < 6 → svSource (v10Context 6 true 2 false) 0 i < v10.crf.length) ∧
      (∀ i, i < 6 → 20 + i / 2 ^ (v10Context 6 true 2 false).bbElwidth.toNat < v10.x.length) := by decide

/-- A scalar RT with mapreduce at VL 16, the last that is defined. -/
theorem witness_SvMfcrrweirdScalarInsertsNibbles :
    (v10Context 16 false 0 true).rtElwidth = 0 ∧ (v10Context 16 false 0 true).rtIsVec = false ∧
      16 = (if (v10Context 16 false 0 true).mapreduce then (v10Context 16 false 0 true).vl
        else min (v10Context 16 false 0 true).vl 1) ∧
      95 < bigArrays.x.length ∧ (∀ i, i < 16 → svSource (v10Context 16 false 0 true) 80 i < bigArrays.crf.length) := by
  decide

theorem witness_SvMfcrrweirdVectorPacksNibbles :
    (v10Context 12 true 3 false).rtElwidth = 0 ∧ (v10Context 12 true 3 false).rtIsVec = true ∧
      (∀ i, i < 12 → svSource (v10Context 12 true 3 false) 0 i < v10.crf.length) ∧
      (∀ i, i < 12 → 20 + i / 2 ^ (v10Context 12 true 3 false).bbElwidth.toNat < v10.x.length) := by decide

theorem witness_SvCrrweirdElementZeroIsCrrweird : 2 ≤ ([3, 12] : List Nibble).length ∧ start.pc ≠ topPc ∧ (v10Context 1 false 0 false).rtElwidth = 0 ∧
    (v10Context 1 false 0 false).rtIsVec = false ∧ (v10Context 1 false 0 false).mapreduce = false ∧
    0 < (v10Context 1 false 0 false).vl := by decide

/-- The scalar state with two more fields, and arrays beyond it. -/
theorem witness_SvArraysHoldTheScalarState :
    2 ≤ ([3, 12] : List Nibble).length ∧ v10.field 7 = 15 ∧ v10.gpr 20 = 0xFFFFFFFFFFFFFF00 ∧
      (start.withSvArrays v10).crf 7 = 15 ∧ (start.withSvArrays v10).gpr 20 = 0xFFFFFFFFFFFFFF00 := by decide

/-- The clauses: a narrow element, and VL one above each limit. -/
theorem witness_SvUndefinedCasesAreRefused :
    ({ v10Context 1 true 0 false with rtElwidth := 1 } : SvContext).rtElwidth ≠ 0 ∧
    ((v10Context 65 false 0 true).rtElwidth = 0 ∧ (v10Context 65 false 0 true).rtIsVec = false ∧
      (v10Context 65 false 0 true).mapreduce = true ∧ 64 < (v10Context 65 false 0 true).vl) ∧
    ((v10Context 17 false 0 true).rtElwidth = 0 ∧ (v10Context 17 false 0 true).rtIsVec = false ∧
      (v10Context 17 false 0 true).mapreduce = true ∧ 16 < (v10Context 17 false 0 true).vl) := by decide

end Sys2Proof.Tests
end

/-! The scope (00_scope.md): the numbering of CR fields and bits (R7), and (RA|0) with RA 0 (R11). -/

namespace Sys2Proof.Machine

/-! CR fields and bits by arithmetic, and after any write (00_scope.md R7). -/

theorem crfOf_toNat (cr : CrWord) (k : FieldNum) : (crfOf cr k).toNat = cr.toNat / 2 ^ (28 - 4 * k.val) % 16 :=
  extract_toNat cr (crfShift k) 4

theorem crBitOf_toNat (cr : CrWord) (b : CrBitNum) : (crBitOf cr b).toNat = cr.toNat / 2 ^ (31 - b.val) % 2 := by
  rw [crBitOf, crBitShift, BitVec.getLsbD, Nat.toNat_testBit]

theorem crfOf_crfPut (cr : CrWord) (k k' : FieldNum) (v : Nibble) :
    crfOf (crfPut cr k v) k' = if k' = k then v else crfOf cr k' := by
  split
  case isTrue h => rw [h, crfOf_crfPut_same]
  case isFalse h => exact crfOf_crfPut_other cr v h

theorem crBitOf_crBitPut (cr : CrWord) (b b' : CrBitNum) (v : Bool) :
    crBitOf (crBitPut cr b v) b' = if b' = b then v else crBitOf cr b' := by
  split
  case isTrue h => rw [h, crBitOf_crBitPut_same]
  case isFalse h => exact crBitOf_crBitPut_other cr v h

/-- Settles O10: each of the four clauses is one law of the Condition Register. -/
theorem crFieldsAndBitsFollowTheNumbering : Obligations.CrFieldsAndBitsFollowTheNumbering :=
  ⟨crfOf_toNat, crBitOf_toNat, crfOf_crfPut, crBitOf_crBitPut⟩

/-! The moves into a CR field that read no register. -/

/-- The new CR is a function of the old CR and the operands, not of x. -/
theorem matchIntoField_cr (s : State) (bf : FieldNum) (creg : Nibble) (m : Bool) (fmsk fmap : Nibble) :
    (s.matchIntoField bf creg m fmsk fmap).cr =
      crfPut s.cr bf (mergeField m (match4 creg fmsk fmap) (crfOf s.cr bf) fmsk) := rfl

@[simp] theorem lowNibble_zero : lowNibble 0 = 0 := rfl
@[simp] theorem lowBitFourTimes_zero : lowBitFourTimes 0 = 0 := rfl

section
variable (bf : FieldNum) (m : Bool) (fmsk fmap : Nibble) (s : State)

theorem exec_mtcrrweird_ra_zero :
    exec (.mtcrrweird bf 0 m fmsk fmap) s = complete (s.matchIntoField bf 0 m fmsk fmap) := by
  rw [exec, execMtcrrweird, ra0_zero, lowNibble_zero]

theorem exec_mtcrweird_ra_zero :
    exec (.mtcrweird bf 0 m fmsk fmap) s = complete (s.matchIntoField bf 0 m fmsk fmap) := by
  rw [exec, execMtcrweird, ra0_zero, lowBitFourTimes_zero]

theorem exec_mtcri : exec (.mtcri bf fmap) s = complete (s.matchIntoField bf 0 false 15 (~~~fmap)) := by
  rw [exec, execMtcri, ra0_zero, lowBitFourTimes_zero]

theorem exec_mtcrset : exec (.mtcrset bf fmsk) s = complete (s.matchIntoField bf 0 true fmsk 0) := by
  rw [exec, execMtcrset, ra0_zero, lowBitFourTimes_zero]

theorem exec_mtcrclr : exec (.mtcrclr bf fmsk) s = complete (s.matchIntoField bf 0 true fmsk 15) := by
  rw [exec, execMtcrclr, ra0_zero, lowBitFourTimes_zero]

end

/-- With RA 0 the five moves match the constant 0 into field BF, under operands that no state enters. -/
theorem exec_ra_zero_eq_matchIntoField {bf : FieldNum} {m : Bool} {fmsk fmap : Nibble} {i : Instr}
    (hi : i ∈ [Instr.mtcrrweird bf 0 m fmsk fmap, .mtcrweird bf 0 m fmsk fmap, .mtcri bf fmap, .mtcrset bf fmsk,
      .mtcrclr bf fmsk]) :
    ∃ m' fmsk' fmap', ∀ s, exec i s = complete (s.matchIntoField bf 0 m' fmsk' fmap') := by
  simp only [List.mem_cons, List.not_mem_nil, or_false] at hi
  rcases hi with rfl | rfl | rfl | rfl | rfl
  · exact ⟨m, fmsk, fmap, exec_mtcrrweird_ra_zero bf m fmsk fmap⟩
  · exact ⟨m, fmsk, fmap, exec_mtcrweird_ra_zero bf m fmsk fmap⟩
  · exact ⟨false, 15, ~~~fmap, exec_mtcri bf fmap⟩
  · exact ⟨true, fmsk, 0, exec_mtcrset bf fmsk⟩
  · exact ⟨true, fmsk, 15, exec_mtcrclr bf fmsk⟩

/-- Settles O31: both runs match 0 into field BF, and the resulting CR is a function of the old CR, not of x. -/
theorem raZeroReadsNoRegister : Obligations.RaZeroReadsNoRegister := by
  intro bf m fmsk fmap s v hp i hi
  obtain ⟨m', fmsk', fmap', hexec⟩ := exec_ra_zero_eq_matchIntoField hi
  refine ⟨_, _, (hexec s).trans (complete_next hp), (hexec { s with x := v }).trans (complete_next hp), ?_⟩
  simp only [matchIntoField_cr]

end Sys2Proof.Machine

/-! The state (10_state.md): what an instruction writes and leaves (R22 to R24, R30), the exchange of registers (R21),
and the arrays of the prefixed forms (R31). -/

namespace Sys2Proof.Machine

/-- Settles O42: a step that answers is an instruction's, and no instruction writes these parts. -/
theorem stepKeepsProgramAndXerSo : Obligations.StepKeepsProgramAndXerSo := by
  intro s t h
  obtain ⟨_, _, i, _, _, hexec⟩ := step_next h
  obtain ⟨_, _, hframe⟩ := exec_next_frame hexec
  exact hframe

/-! The locations that each write leaves (R23, R30). -/

theorem setGpr_at (s : State) {i : GprNum} (v : Word) {l : Loc} (h : l ≠ .gpr i) : (s.setGpr i v).at l = s.at l := by
  cases l with
  | gpr j => exact setGpr_gpr_other s v fun e => h (congrArg Loc.gpr e)
  | field k => rfl
  | xerSo => rfl

theorem setCrf_at (s : State) {k : FieldNum} (v : Nibble) {l : Loc} (h : l ≠ .field k) :
    (s.setCrf k v).at l = s.at l := by
  cases l with
  | gpr i => rfl
  | field k' => exact congrArg wordOfNibble (setCrf_crf_other s v fun e => h (congrArg Loc.field e))
  | xerSo => rfl

theorem setCrBit_at (s : State) {b : CrBitNum} (v : Bool) {l : Loc} (h : l ≠ .field (fieldOfBit b)) :
    (s.setCrBit b v).at l = s.at l := by
  cases l with
  | gpr i => rfl
  | field k => exact congrArg wordOfNibble (setCrBit_crf_other s b v fun e => h (congrArg Loc.field e))
  | xerSo => rfl

theorem record_at (s : State) (v : Word) {l : Loc} (h : l ≠ .field 0) : (s.record v).at l = s.at l :=
  setCrf_at s _ h

theorem matchIntoField_at (s : State) {bf : FieldNum} (creg : Nibble) (m : Bool) (fmsk fmap : Nibble) {l : Loc}
    (h : l ≠ .field bf) : (s.matchIntoField bf creg m fmsk fmap).at l = s.at l :=
  setCrf_at s _ h

theorem setGpr_record_at (s : State) {rt : GprNum} (v w : Word) {l : Loc} (hg : l ≠ .gpr rt) (hf : l ≠ .field 0) :
    ((s.setGpr rt v).record w).at l = s.at l :=
  (record_at _ w hf).trans (setGpr_at s v hg)

/-- Completing moves pc, which is no location. -/
theorem complete_next_at {u t : State} (h : complete u = .next t) (l : Loc) : t.at l = u.at l := by
  obtain ⟨_, rfl⟩ := complete_eq_next h
  cases l <;> rfl

/-- Every meaning completes a state that holds the old content outside its row of the write table. -/
theorem exec_complete_at (i : Instr) (s : State) :
    ∃ u, exec i s = complete u ∧ ∀ l, l ∉ writesOf i → u.at l = s.at l := by
  cases i with
  | crrweird | mfcrrweird => exact ⟨_, rfl, fun l h => setGpr_at s _ (List.ne_of_not_mem_cons h)⟩
  | crrweirdRc | mfcrrweirdRc =>
    exact ⟨_, rfl, fun l h => setGpr_record_at s _ _ (List.ne_of_not_mem_cons h)
      (List.ne_of_not_mem_cons (List.not_mem_of_not_mem_cons h))⟩
  | crweirder => exact ⟨_, rfl, fun l h => setCrBit_at s _ (List.ne_of_not_mem_cons h)⟩
  | mcrfm => exact ⟨_, rfl, fun l h => setCrf_at s _ (List.ne_of_not_mem_cons h)⟩
  | mtcrrweird | mtcrweird | mtcri | mtcrset | mtcrclr =>
    exact ⟨_, rfl, fun l h => matchIntoField_at s _ _ _ _ (List.ne_of_not_mem_cons h)⟩

/-- Settles O36: the locations by the write table, the rest by the frame every instruction has. -/
theorem instructionChangesOnlyWhatItWrites : Obligations.InstructionChangesOnlyWhatItWrites := by
  intro i s t h
  obtain ⟨u, hexec, hat⟩ := exec_complete_at i s
  obtain ⟨_, _, hso, hmem, henc, hbase, hendian⟩ := exec_next_frame h
  exact ⟨fun l hl => (complete_next_at (hexec ▸ h) l).trans (hat l hl), hso, henc, hbase, hendian,
    fun a => by rw [hmem]⟩

/-! The exchange of two registers (R21). -/

theorem swapGprs_ra0 {r r' : GprNum} (hr : r ≠ 0) (hr' : r' ≠ 0) (s : State) (ra : GprNum) :
    (s.swapGprs r r').ra0 (swapNum r r' ra) = s.ra0 ra := by
  simp only [State.ra0, swapNum_eq_zero hr hr', swapGprs_gpr, swapNum_swapNum]

theorem swapGprs_matchIntoField (r r' : GprNum) (s : State) (bf : FieldNum) (creg : Nibble) (m : Bool)
    (fmsk fmap : Nibble) : (s.matchIntoField bf creg m fmsk fmap).swapGprs r r' =
      (s.swapGprs r r').matchIntoField bf creg m fmsk fmap := rfl

theorem complete_swapGprs {u t : State} (r r' : GprNum) (h : complete u = .next t) :
    complete (u.swapGprs r r') = .next (t.swapGprs r r') := by
  obtain ⟨hp, rfl⟩ := complete_eq_next h
  exact complete_next hp

/-- The renamed instruction in the exchanged state completes the exchange of what the instruction completes: each write
commutes with the exchange, and the value written is the same. -/
theorem exec_renameGprs_swapGprs {r r' : GprNum} (hr : r ≠ 0) (hr' : r' ≠ 0) (i : Instr) (s : State) :
    ∃ u, exec i s = complete u ∧ exec (renameGprs r r' i) (s.swapGprs r r') = complete (u.swapGprs r r') := by
  cases i with
  | crrweird | mfcrrweird => exact ⟨_, rfl, congrArg complete (swapGprs_setGpr r r' s _ _).symm⟩
  | crrweirdRc | mfcrrweirdRc =>
    refine ⟨_, rfl, ?_⟩
    rw [swapGprs_record, swapGprs_setGpr]
    rfl
  | mtcrrweird | mtcrweird =>
    refine ⟨_, rfl, ?_⟩
    rw [swapGprs_matchIntoField, ← swapGprs_ra0 hr hr']
    rfl
  | mcrfm | crweirder | mtcri | mtcrset | mtcrclr => exact ⟨_, rfl, rfl⟩

/-- Settles O34: 3, 10 and 31 are numbers other than 0, and the exchange of two such numbers commutes with every
instruction. -/
theorem maskRegistersAreOrdinary : Obligations.MaskRegistersAreOrdinary := by
  intro r r' hr hr' i s t h
  have hr0 : r ≠ 0 := by rcases hr with rfl | rfl | rfl <;> decide
  obtain ⟨u, hexec, hswap⟩ := exec_renameGprs_swapGprs hr0 hr' i s
  exact hswap.trans (complete_swapGprs r r' (hexec ▸ h))

/-! The arrays of a state, and the state that takes arrays (R31). -/

theorem svArrays_field (s : State) (fields : List Nibble) (regs : List Word) (h : 2 ≤ fields.length) (k : FieldNum) :
    (s.svArrays fields regs h).field k.val = s.crf k := by
  simp [State.svArrays, SvArrays.field, List.getD, List.getElem?_append]

theorem svArrays_gpr (s : State) (fields : List Nibble) (regs : List Word) (h : 2 ≤ fields.length) (i : GprNum) :
    (s.svArrays fields regs h).gpr i.val = s.gpr i := by
  simp [State.svArrays, SvArrays.gpr, State.gpr, List.getD, List.getElem?_append]

theorem withSvArrays_crf (s : State) (a : SvArrays) (k : FieldNum) : (s.withSvArrays a).crf k = a.field k.val := by
  rw [State.crf, withSvArrays_cr, crfOf_foldl_crfPut (fun k => a.field k.val), if_pos (List.mem_finRange k)]

theorem withSvArrays_gpr (s : State) (a : SvArrays) (i : GprNum) : (s.withSvArrays a).gpr i = a.gpr i.val := by
  simp [State.gpr, withSvArrays_x]

/-- A state that reads its own arrays back is itself: the eight fields are all of CR, the 32 registers all of x. -/
theorem withSvArrays_svArrays (s : State) (fields : List Nibble) (regs : List Word) (h : 2 ≤ fields.length) :
    s.withSvArrays (s.svArrays fields regs h) = s := by
  have hcr : (s.withSvArrays (s.svArrays fields regs h)).cr = s.cr :=
    cr_ext fun k => (withSvArrays_crf s _ k).trans (svArrays_field s fields regs h k)
  have hx : (s.withSvArrays (s.svArrays fields regs h)).x = s.x :=
    Vector.ext fun n hn => (withSvArrays_gpr s _ ⟨n, hn⟩).trans (svArrays_gpr s fields regs h ⟨n, hn⟩)
  rw [withSvArrays_cr] at hcr
  rw [withSvArrays_x] at hx
  rw [State.withSvArrays, hcr, hx]

/-- Settles O54: each clause is one law of the two directions of the identification. -/
theorem svArraysHoldTheScalarState : Obligations.SvArraysHoldTheScalarState :=
  ⟨fun s fields regs h => ⟨svArrays_field s fields regs h, svArrays_gpr s fields regs h,
      withSvArrays_svArrays s fields regs h⟩,
    fun s a => ⟨withSvArrays_crf s a, withSvArrays_gpr s a, withSvArrays_pc s a, withSvArrays_xerSo s a,
      withSvArrays_mem s a, withSvArrays_enc s a, withSvArrays_baseIsa s a, withSvArrays_ifetchEndian s a⟩⟩

/-! CR as its eight fields, and the one bit that crweirder writes (R22). -/

theorem cr_toNat_eq_sum_crfOf (cr : CrWord) : cr.toNat =
    (crfOf cr 0).toNat * 2 ^ 28 + (crfOf cr 1).toNat * 2 ^ 24 + (crfOf cr 2).toNat * 2 ^ 20 +
      (crfOf cr 3).toNat * 2 ^ 16 + (crfOf cr 4).toNat * 2 ^ 12 + (crfOf cr 5).toNat * 2 ^ 8 +
      (crfOf cr 6).toNat * 2 ^ 4 + (crfOf cr 7).toNat := by
  have hlt := cr.isLt
  simp only [crfOf_toNat]
  norm_num
  omega

theorem eq_fieldOfBit_iff {k : FieldNum} {b : CrBitNum} : k = fieldOfBit b ↔ k.val = b.val / 4 := Fin.ext_iff

/-- A bit write leaves every position of every field but its own, positions counted from the field's first bit. -/
theorem setCrBit_crf_getLsbD_other (s : State) {b : CrBitNum} (v : Bool) {k : FieldNum} {q : Nat} (hq : q < 4)
    (h : ¬ (k.val = b.val / 4 ∧ q = b.val % 4)) :
    ((s.setCrBit b v).crf k).getLsbD (3 - q) = (s.crf k).getLsbD (3 - q) := by
  by_cases hk : k = fieldOfBit b
  · have hne : 3 - q ≠ 3 - b.val % 4 := by have := eq_fieldOfBit_iff.mp hk; omega
    subst hk
    exact (crfOf_crBitPut_getLsbD s.cr b v (3 - q)).trans (if_neg hne)
  · rw [setCrBit_crf_other s b v hk]

/-- The next state of crweirder, pc apart, is the state with the bit written. -/
theorem exec_crweirder_next_cr {bt : CrBitNum} {bfa : FieldNum} {m : Bool} {fmsk fmap : Nibble} {s t : State}
    (h : exec (.crweirder bt bfa m fmsk fmap) s = .next t) :
    t.cr = (s.setCrBit bt (testField m (s.crf bfa) fmsk fmap)).cr := by
  obtain ⟨_, rfl⟩ := complete_eq_next h
  rfl

/-- Settles O58: the sum by arithmetic, the place of a bit and what its write leaves by the laws of the bit. -/
theorem crIsEightFieldsAndBtLiesInOne : Obligations.CrIsEightFieldsAndBtLiesInOne := by
  refine ⟨cr_toNat_eq_sum_crfOf, ?place, ?write⟩
  case place =>
    intro cr b k hk
    rw [eq_fieldOfBit_iff.mpr hk]
    exact crBitOf_eq_crfOf cr b
  case write =>
    intro bt bfa m fmsk fmap s t h k q hq hkq
    rw [State.crf, exec_crweirder_next_cr h]
    exact setCrBit_crf_getLsbD_other s _ hq hkq

/-! The table of R23: what is written is a function of what the row reads. -/

theorem ra0_congr {s s' : State} (hx : s.x = s'.x) (ra : GprNum) : s.ra0 ra = s'.ra0 ra := by
  simp only [State.ra0, State.gpr, hx]

theorem crrweirdValue_congr {s s' : State} {bfa : FieldNum} (h : s.crf bfa = s'.crf bfa) (m : Bool)
    (fmsk fmap : Nibble) : crrweirdValue s bfa m fmsk fmap = crrweirdValue s' bfa m fmsk fmap := by
  simp only [crrweirdValue, h]

theorem mfcrrweirdValue_congr {s s' : State} {bfa : FieldNum} (h : s.crf bfa = s'.crf bfa) (fmsk fmap : Nibble) :
    mfcrrweirdValue s bfa fmsk fmap = mfcrrweirdValue s' bfa fmsk fmap := by
  simp only [mfcrrweirdValue, h]

/-- The old field enters the merge with M alone. -/
theorem mergeField_congr {m : Bool} {old old' : Nibble} (h : m = true → old = old') (result fmsk : Nibble) :
    mergeField m result old fmsk = mergeField m result old' fmsk := by
  cases m with
  | false => rfl
  | true => rw [h rfl]

theorem mcrfmValue_congr {s s' : State} {bf bfa : FieldNum} {m : Bool} (hbfa : s.crf bfa = s'.crf bfa)
    (hbf : m = true → s.crf bf = s'.crf bf) (fmsk fmap : Nibble) :
    mcrfmValue s bf bfa m fmsk fmap = mcrfmValue s' bf bfa m fmsk fmap := by
  rw [mcrfmValue, mcrfmValue, hbfa, mergeField_congr hbf]

/-- A run that writes one register: CR stays, and the registers are a function of the old ones and the value. -/
theorem complete_setGpr_next {s t : State} {rt : GprNum} {v : Word} (h : complete (s.setGpr rt v) = .next t) :
    t.cr = s.cr ∧ t.x = s.x.set rt v := by
  obtain ⟨_, rfl⟩ := complete_eq_next h
  exact ⟨rfl, rfl⟩

/-- A run that writes one register and records it. -/
theorem complete_record_next {s t : State} {rt : GprNum} {v : Word}
    (h : complete ((s.setGpr rt v).record v) = .next t) :
    t.x = s.x.set rt v ∧ t.gpr rt = v ∧ t.crf 0 = analyse v s.xerSo ∧ ∀ k, k ≠ 0 → t.crf k = s.crf k := by
  obtain ⟨_, rfl⟩ := complete_eq_next h
  exact ⟨rfl, setGpr_gpr_same s rt v, record_crf_zero (s.setGpr rt v) v,
    fun k hk => record_crf_other (s.setGpr rt v) v hk⟩

/-- A run that writes one CR field. -/
theorem complete_setCrf_next {s t : State} {bf : FieldNum} {v : Nibble} (h : complete (s.setCrf bf v) = .next t) :
    t.crf bf = v ∧ ∀ k, k ≠ bf → t.crf k = s.crf k := by
  obtain ⟨_, rfl⟩ := complete_eq_next h
  exact ⟨setCrf_crf_same s bf v, fun k hk => setCrf_crf_other s v hk⟩

/-- A run that writes one CR bit. -/
theorem complete_setCrBit_next {s t : State} {bt : CrBitNum} {v : Bool} (h : complete (s.setCrBit bt v) = .next t) :
    t.crBit bt = v ∧ ∀ b, b ≠ bt → t.crBit b = s.crBit b := by
  obtain ⟨_, rfl⟩ := complete_eq_next h
  exact ⟨setCrBit_crBit_same s bt v, fun b hb => setCrBit_crBit_other s v hb⟩

section
variable {s t s' t' : State}

/-- The two rows that write RT: the same value into the same registers. -/
theorem setGpr_row {rt : GprNum} {v v' : Word} (hx : s.x = s'.x) (hv : v = v')
    (h : complete (s.setGpr rt v) = .next t) (h' : complete (s'.setGpr rt v') = .next t') :
    t.cr = s.cr ∧ t.x = t'.x := by
  obtain ⟨hcr, htx⟩ := complete_setGpr_next h
  obtain ⟨_, htx'⟩ := complete_setGpr_next h'
  exact ⟨hcr, by rw [htx, htx', hx, hv]⟩

/-- The two rows that write RT and record it. -/
theorem record_row {rt : GprNum} {v v' : Word} (hx : s.x = s'.x) (hso : s.xerSo = s'.xerSo) (hv : v = v')
    (h : complete ((s.setGpr rt v).record v) = .next t) (h' : complete ((s'.setGpr rt v').record v') = .next t') :
    t.crf 0 = analyse (t.gpr rt) s.xerSo ∧ (∀ k, k ≠ 0 → t.crf k = s.crf k) ∧ t.x = t'.x ∧ t.crf 0 = t'.crf 0 := by
  obtain ⟨htx, hgpr, hzero, hother⟩ := complete_record_next h
  obtain ⟨htx', _, hzero', _⟩ := complete_record_next h'
  exact ⟨by rw [hzero, hgpr], hother, by rw [htx, htx', hx, hv], by rw [hzero, hzero', hso, hv]⟩

/-- The three rows that write field BF: the same value. -/
theorem setCrf_row {bf : FieldNum} {v v' : Nibble} (hv : v = v') (h : complete (s.setCrf bf v) = .next t)
    (h' : complete (s'.setCrf bf v') = .next t') : (∀ k, k ≠ bf → t.crf k = s.crf k) ∧ t.crf bf = t'.crf bf := by
  obtain ⟨hsame, hother⟩ := complete_setCrf_next h
  obtain ⟨hsame', _⟩ := complete_setCrf_next h'
  exact ⟨hother, by rw [hsame, hsame', hv]⟩

/-- mtcrrweird and mtcrweird read four bits of a register, and field BF with M alone. -/
theorem matchIntoField_row {bf : FieldNum} {creg creg' : Nibble} {m : Bool} {fmsk fmap : Nibble} (hcreg : creg = creg')
    (hbf : m = true → s.crf bf = s'.crf bf) (h : complete (s.matchIntoField bf creg m fmsk fmap) = .next t)
    (h' : complete (s'.matchIntoField bf creg' m fmsk fmap) = .next t') :
    (∀ k, k ≠ bf → t.crf k = s.crf k) ∧ t.crf bf = t'.crf bf :=
  setCrf_row (by rw [hcreg, mergeField_congr hbf]) h h'

/-- The row that writes one bit. -/
theorem setCrBit_row {bt : CrBitNum} {v v' : Bool} (hv : v = v') (h : complete (s.setCrBit bt v) = .next t)
    (h' : complete (s'.setCrBit bt v') = .next t') :
    (∀ b, b ≠ bt → t.crBit b = s.crBit b) ∧ t.crBit bt = t'.crBit bt := by
  obtain ⟨hsame, hother⟩ := complete_setCrBit_next h
  obtain ⟨hsame', _⟩ := complete_setCrBit_next h'
  exact ⟨hother, by rw [hsame, hsame', hv]⟩

end

/-- Settles O59: each row is the rule of its shared write, at the value that the row's reads determine. -/
theorem crIsSetAndReadByItsTable : Obligations.CrIsSetAndReadByItsTable := by
  refine ⟨?xerSo, ?crToGpr, ?gprToCr, ?mcrfm, ?crweirder⟩
  case xerSo =>
    intro i s t h
    obtain ⟨_, _, hso, _⟩ := exec_next_frame h
    exact hso
  case crToGpr =>
    intro s t s' t' rt bfa m fmsk fmap hx hso hbfa
    have htest := crrweirdValue_congr hbfa m fmsk fmap
    have hmatch := mfcrrweirdValue_congr hbfa fmsk fmap
    exact ⟨setGpr_row hx htest, record_row hx hso htest, setGpr_row hx hmatch, record_row hx hso hmatch⟩
  case gprToCr =>
    intro s t s' t' bf ra m fmsk fmap hx hbf
    have hra := ra0_congr hx ra
    exact ⟨matchIntoField_row (congrArg lowNibble hra) hbf, matchIntoField_row (congrArg lowBitFourTimes hra) hbf⟩
  case mcrfm =>
    intro s t s' t' bf bfa m fmsk fmap hbfa hbf
    exact setCrf_row (mcrfmValue_congr hbfa hbf fmsk fmap)
  case crweirder =>
    intro s t s' t' bt bfa m fmsk fmap hbfa
    exact setCrBit_row (by rw [hbfa])

end Sys2Proof.Machine

/-! The instruction space and the step (20_memory.md): what every step keeps (R43), the bytes of a held word (R41), and
what a step runs (R41). -/

namespace Sys2Proof.Machine

/-! What every step keeps (R43). -/

/-- The step from 2^64 - 4 is refused, so a step that answers adds 4 to pc as a number (10_state.md R26). -/
theorem step_next_pc {s t : State} (h : step s = .next t) : t.pc.toNat = s.pc.toNat + 4 := by
  obtain ⟨haligned, _, _, _, _, hexec⟩ := step_next h
  obtain ⟨hne, hpc, _⟩ := exec_next_frame hexec
  rw [hpc]
  exact pc_add_four haligned hne

/-- Settles O43: pc grows by 4 without wrapping, and the step leaves the other parts that the invariant names. -/
theorem everyStepKeepsTheInvariant : Obligations.EveryStepKeepsTheInvariant := by
  intro s t hinv h
  have hpc := step_next_pc h
  have haligned := hinv.aligned
  obtain ⟨_, hmem, henc, hbase, _⟩ := stepKeepsProgramAndXerSo s t h
  exact
    { aligned := by omega
      memory := hmem ▸ hinv.memory
      enc := henc ▸ hinv.enc
      base := henc ▸ hbase ▸ hinv.base }

/-! The bytes of a held word (R41). -/

/-- A word is held where four bytes are listed that make it. -/
theorem memWord_eq_some_iff {m : List Host.Cell} {en : Endian} {a : Nat} {w : InstrWord} :
    memWord m en a = some w ↔
      ∃ b0 b1 b2 b3, (memRead m a = some b0 ∧ memRead m (a + 1) = some b1 ∧ memRead m (a + 2) = some b2 ∧
        memRead m (a + 3) = some b3) ∧ wordOfBytes en b0 b1 b2 b3 = w := by
  constructor
  · intro h
    unfold memWord at h
    split at h
    case h_1 b0 b1 b2 b3 h0 h1 h2 h3 => exact ⟨b0, b1, b2, b3, ⟨h0, h1, h2, h3⟩, Option.some.inj h⟩
    case h_2 => cases h
  · rintro ⟨b0, b1, b2, b3, ⟨h0, h1, h2, h3⟩, rfl⟩
    simp only [memWord, h0, h1, h2, h3]

/-- Four bytes make a word exactly when each is the byte of the word at its place. -/
theorem wordOfBytes_eq_iff {en : Endian} {b0 b1 b2 b3 : Byte} {w : InstrWord} :
    wordOfBytes en b0 b1 b2 b3 = w ↔
      b0.toNat = w.toNat / 2 ^ byteShift en 0 % 2 ^ 8 ∧ b1.toNat = w.toNat / 2 ^ byteShift en 1 % 2 ^ 8 ∧
        b2.toNat = w.toNat / 2 ^ byteShift en 2 % 2 ^ 8 ∧ b3.toNat = w.toNat / 2 ^ byteShift en 3 % 2 ^ 8 := by
  have := b0.isLt
  have := b1.isLt
  have := b2.isLt
  have := b3.isLt
  have := w.isLt
  rw [← BitVec.toNat_inj, wordOfBytes_toNat]
  cases en with
  | big => simp only [byteShift]; omega
  | little => simp only [byteShift]; omega

/-- Settles O57: both sides say that four bytes are listed and that they make the word. -/
theorem wordsLieInTheirByteOrder : Obligations.WordsLieInTheirByteOrder := by
  intro m en a w
  simp only [memWord_eq_some_iff, wordOfBytes_eq_iff]
  constructor
  · rintro ⟨b0, b1, b2, b3, ⟨hr0, hr1, hr2, hr3⟩, hb0, hb1, hb2, hb3⟩ i hi
    interval_cases i
    · exact ⟨b0, hr0, hb0⟩
    · exact ⟨b1, hr1, hb1⟩
    · exact ⟨b2, hr2, hb2⟩
    · exact ⟨b3, hr3, hb3⟩
  · intro h
    obtain ⟨b0, hr0, hb0⟩ := h 0 (by omega)
    obtain ⟨b1, hr1, hb1⟩ := h 1 (by omega)
    obtain ⟨b2, hr2, hb2⟩ := h 2 (by omega)
    obtain ⟨b3, hr3, hb3⟩ := h 3 (by omega)
    exact ⟨b0, b1, b2, b3, ⟨hr0, hr1, hr2, hr3⟩, hb0, hb1, hb2, hb3⟩

/-! What a step runs (R41, 30_encoding.md R67). -/

theorem stepWord_of_decode_instr {s : State} {w : InstrWord} {i : Instr} (h : decode s.enc w = .instr i) :
    stepWord w s = exec i s := by
  rw [stepWord, h]

/-- Settles O37: at an aligned pc the step is that of the fetched word, which runs what it decodes to. -/
theorem stepRunsTheDecodedInstruction : Obligations.StepRunsTheDecodedInstruction :=
  fun _ _ _ haligned hfetch hdecode => (step_aligned_word haligned hfetch).trans (stepWord_of_decode_instr hdecode)

end Sys2Proof.Machine

/-! Encoding and decoding (30_encoding.md): what decoding answers (R60, R61, R67), the word of every instruction and back
(R56), assembly lines (R55, R64, R65), and the pseudo-ops (R66). -/

namespace Sys2Proof

/-! What decoding answers, by which instructions match (R67). -/

theorem decode_eq_illegal_iff {e : Enc} {w : InstrWord} :
    decode e w = .illegal ↔ matchingOps e (fieldsOfWord w) = [] := by
  rcases decode_cases e w with ⟨hops, hd⟩ | ⟨op, hops, _, hd⟩ | ⟨op, hops, _, hd⟩ | ⟨hlen, hd⟩
  · simp [hops, hd]
  · simp [hops, hd]
  · simp [hops, hd]
  · simp [hd, List.ne_nil_of_length_pos (Nat.zero_lt_of_lt hlen)]

theorem decode_eq_reserved {e : Enc} {w : InstrWord} {op : Op} (h : decode e w = .reserved op) :
    matchesOp e (fieldsOfWord w) op = true ∧ reservedSet op (fieldsOfWord w) = true := by
  rcases decode_cases e w with ⟨_, hd⟩ | ⟨_, hops, hreserved, hd⟩ | ⟨_, _, _, hd⟩ | ⟨_, hd⟩ <;> cases hd.symm.trans h
  exact ⟨mem_matchingOps.mp (hops ▸ List.mem_singleton_self _), hreserved⟩

theorem decode_eq_instr {e : Enc} {w : InstrWord} {i : Instr} (h : decode e w = .instr i) :
    ∃ op, matchesOp e (fieldsOfWord w) op = true ∧ reservedSet op (fieldsOfWord w) = false ∧
      readOperands op (fieldsOfWord w) = i := by
  rcases decode_cases e w with ⟨_, hd⟩ | ⟨_, _, _, hd⟩ | ⟨op, hops, hreserved, hd⟩ | ⟨_, hd⟩ <;> cases hd.symm.trans h
  exact ⟨op, mem_matchingOps.mp (hops ▸ List.mem_singleton_self op), hreserved, rfl⟩

/-- A word that matches two instructions matches some instruction, and under an admissible ENC that one alone. -/
theorem decode_ne_ambiguous {e : Enc} (he : e.Admissible) (w : InstrWord) : decode e w ≠ .ambiguous := by
  intro h
  rcases decode_cases e w with ⟨_, hd⟩ | ⟨_, _, _, hd⟩ | ⟨_, _, _, hd⟩ | ⟨htwo, hd⟩ <;> cases hd.symm.trans h
  obtain ⟨op, hop⟩ := List.exists_mem_of_length_pos (Nat.zero_lt_of_lt htwo)
  have hone := matchingOps_eq_single he (mem_matchingOps.mp hop)
  simp [hone] at htwo

/-- Under an admissible ENC a word is decoded as the instruction that it matches. -/
theorem decode_of_matchesOp {e : Enc} (he : e.Admissible) {w : InstrWord} {op : Op}
    (h : matchesOp e (fieldsOfWord w) op = true) :
    decode e w = if reservedSet op (fieldsOfWord w) then .reserved op
      else .instr (readOperands op (fieldsOfWord w)) :=
  decode_eq_of_single (matchingOps_eq_single he h)

/-! From the instruction to its word and back (R56). -/

/-- The laws of the eleven rows, for an instruction of any row. -/
theorem fields_statement (i : Instr) : Laws.Fields.Statement i := by
  cases i with
  | crrweird => exact Laws.Fields.crrweird _ _ _ _ _
  | crrweirdRc => exact Laws.Fields.crrweirdRc _ _ _ _ _
  | mfcrrweird => exact Laws.Fields.mfcrrweird _ _ _ _
  | mfcrrweirdRc => exact Laws.Fields.mfcrrweirdRc _ _ _ _
  | mtcrrweird => exact Laws.Fields.mtcrrweird _ _ _ _ _
  | mtcrweird => exact Laws.Fields.mtcrweird _ _ _ _ _
  | mcrfm => exact Laws.Fields.mcrfm _ _ _ _ _
  | crweirder => exact Laws.Fields.crweirder _ _ _ _ _
  | mtcri => exact Laws.Fields.mtcri _ _
  | mtcrset => exact Laws.Fields.mtcrset _ _
  | mtcrclr => exact Laws.Fields.mtcrclr _ _

/-- Settles O1: the word's fields are the instruction's, so the word matches its record, has no reserved bit set and
reads back as its core instruction. -/
theorem decodeOfEncodeIsTheInstruction : Obligations.DecodeOfEncodeIsTheInstruction := by
  intro e he i
  obtain ⟨hmatch, hreserved, hread⟩ := fields_statement i e
  rw [← fieldsOfWord_encode] at hmatch hreserved hread
  rw [decode_of_matchesOp he hmatch, hreserved, hread]
  rfl

theorem coreOf_readOperands (op : Op) (f : WordFields) : coreOf (readOperands op f) = readOperands op f := by
  cases op with
  | crrweird => simp only [readOperands]; split <;> rfl
  | mfcrrweird => simp only [readOperands]; split <;> rfl
  | mtcrrweird => rfl
  | mtcrweird => rfl
  | mcrfm => rfl
  | crweirder => rfl

/-- Reading the operands loses no field of a word that matches: the compared fields are ENC's, the blank bits are 0, and
every other field is an operand. -/
theorem fieldsOfInstr_readOperands {e : Enc} {op : Op} {f : WordFields} (hmatch : matchesOp e f op = true)
    (hreserved : reservedSet op f = false) : fieldsOfInstr e (readOperands op f) = f := by
  obtain ⟨po, f6, m, fmsk, f16, xoHi, fmap, xoLo, l⟩ := f
  obtain ⟨hpo, hxoHi, hxoLo, hl⟩ := (matchesOp_iff e _ op).mp hmatch
  dsimp only at hpo hxoHi hxoLo hl
  subst hpo hxoHi hxoLo
  cases op with
  | crrweird =>
    by_cases h : l = 1
    · simp [readOperands, fieldsOfInstr, fieldsWith, Enc.opcode, h]
    · simp [readOperands, fieldsOfInstr, fieldsWith, Enc.opcode, bit_eq_zero h]
  | mfcrrweird =>
    have hm : m = 0 := by simpa [reservedSet] using hreserved
    by_cases h : l = 1
    · simp [readOperands, fieldsOfInstr, fieldsWith, Enc.opcode, h, hm]
    · simp [readOperands, fieldsOfInstr, fieldsWith, Enc.opcode, bit_eq_zero h, hm]
  | mtcrrweird => simp [readOperands, fieldsOfInstr, fieldsWith, Enc.opcode, hl _ rfl]
  | mtcrweird => simp [readOperands, fieldsOfInstr, fieldsWith, Enc.opcode, hl _ rfl]
  | mcrfm =>
    have hblank : mcrfmBlank f6 = 0#2 := by simpa [reservedSet] using hreserved
    simp [readOperands, fieldsOfInstr, fieldsWith, Enc.opcode, hl _ rfl, mcrfm_f6_of_blank hblank]
  | crweirder => simp [readOperands, fieldsOfInstr, fieldsWith, Enc.opcode, hl _ rfl]

/-- Settles O2: an instruction is answered for a matching word with no reserved bit set, whose fields are all kept. -/
theorem encodeOfDecodeIsTheWord : Obligations.EncodeOfDecodeIsTheWord := by
  intro e w i h
  obtain ⟨op, hmatch, hreserved, rfl⟩ := decode_eq_instr h
  refine ⟨?_, coreOf_readOperands op _⟩
  rw [encode, fieldsOfInstr_readOperands hmatch hreserved, wordOfFields_fieldsOfWord]

/-- The sum of R56 for the fields of an instruction's word. -/
theorem wordOfFields_fieldsWith_toNat (o : Opcode) (f6 : BitVec 5) (m : Bool) (fmsk : Nibble) (f16 : BitVec 3)
    (fmap : Nibble) (l : BitVec 1) :
    (wordOfFields (fieldsWith o f6 m fmsk f16 fmap l)).toNat =
      o.po.toNat * 2 ^ 26 + f6.toNat * 2 ^ 21 + m.toNat * 2 ^ 20 + fmsk.toNat * 2 ^ 16 + f16.toNat * 2 ^ 13 +
        o.xoHi.toNat * 2 ^ 10 + fmap.toNat * 2 ^ 6 + o.xoLo.toNat * 2 + l.toNat := by
  rw [wordOfFields_toNat, fieldsWith, BitVec.toNat_ofBool]

/-- Settles O3: each form's word is the sum over its own fields, where a form without M or Rc has 0 in its place. -/
theorem wordIsTheSumOfItsFields : Obligations.WordIsTheSumOfItsFields := by
  intro e
  refine ⟨?crrweird, ?crrweirdRc, ?mfcrrweird, ?mfcrrweirdRc, ?mtcrrweird, ?mtcrweird, ?mcrfm, ?crweirder⟩
  case mcrfm =>
    intros
    rw [encode, fieldsOfInstr, wordOfFields_fieldsWith_toNat, mcrfm_f6_toNat, field3_toNat]
  all_goals
    intros
    simp [encode, fieldsOfInstr, wordOfFields_fieldsWith_toNat]

/-! Words that match none, one or more of the six, and reserved bits (R58, R60, R61). -/

theorem extract_ne_zero_iff {n : Nat} (w : BitVec n) (lo len : Nat) :
    w.extractLsb' lo len ≠ 0 ↔ ∃ i < len, w.getLsbD (lo + i) = true := by
  rw [ne_eq, BitVec.eq_of_getLsbD_eq_iff]
  simp

/-- The blank bits of mcrfm as bits of the word. -/
theorem mcrfmBlank_f6 (w : InstrWord) : mcrfmBlank (fieldsOfWord w).f6 = w.extractLsb' 21 2 :=
  BitVec.eq_of_getLsbD_eq fun i hi => by
    simp [mcrfmBlank, fieldsOfWord, hi, Nat.lt_of_lt_of_le hi]

theorem reservedBitSet_iff {op : Op} {w : InstrWord} :
    Machine.ReservedBitSet op w ↔ reservedSet op (fieldsOfWord w) = true := by
  cases op with
  | mfcrrweird =>
    rw [reservedSet, bne_iff_ne, fieldsOfWord, extract_ne_zero_iff]
    simp [Machine.ReservedBitSet]
  | mcrfm =>
    rw [reservedSet, bne_iff_ne, mcrfmBlank_f6, extract_ne_zero_iff]
    simp [Machine.ReservedBitSet, Nat.le_one_iff_eq_zero_or_eq_one, or_and_right, exists_or]
  | crrweird | mtcrrweird | mtcrweird | crweirder => simp [Machine.ReservedBitSet, reservedSet]

/-- Settles O5: two instructions that a word matches have one triple, so under an admissible ENC they are one. -/
theorem atMostOneInstructionMatches : Obligations.AtMostOneInstructionMatches := by
  intro e he w
  refine ⟨fun op op' hop hop' => ?_, decode_ne_ambiguous he w⟩
  rw [Machine.wordMatches_iff] at hop hop'
  exact op_eq_of_opcode_eq he ((opcode_of_matchesOp hop).trans (opcode_of_matchesOp hop').symm)

/-- Settles O6: a word is illegal when the list of the instructions it matches is empty. -/
theorem illegalExactlyWhenNoInstructionMatches : Obligations.IllegalExactlyWhenNoInstructionMatches := by
  intro e w
  simp only [decode_eq_illegal_iff, List.eq_nil_iff_forall_not_mem, mem_matchingOps, Machine.wordMatches_iff]

/-- Settles O7: under an admissible ENC the instruction that a word matches decides what decoding answers. -/
theorem reservedExactlyWhenAReservedBitIsSet : Obligations.ReservedExactlyWhenAReservedBitIsSet := by
  intro e he w op
  rw [Machine.wordMatches_iff, reservedBitSet_iff]
  constructor
  · exact decode_eq_reserved
  · rintro ⟨hmatch, hreserved⟩
    rw [decode_of_matchesOp he hmatch, if_pos hreserved]

/-- Settles O8: the decoder evaluated on each of the eight words. -/
theorem sampleWordsDecodeUnderEncEx : Obligations.SampleWordsDecodeUnderEncEx := by
  unfold Obligations.SampleWordsDecodeUnderEncEx
  decide

/-! Assembly lines (R55, R64, R65). -/

theorem AsmLine.wellFormed_iff (l : AsmLine) : l.wellFormed = true ↔
    l.operands.length = l.mnemonic.operands.length ∧
      ∀ (n : Nat) (k : OperandKind) (v : Nat), l.mnemonic.operands[n]? = some k → l.operands[n]? = some v →
        v < k.bound := by
  simp only [AsmLine.wellFormed, Bool.and_eq_true, beq_iff_eq, List.all_eq_true, decide_eq_true_iff]
  refine and_congr_right fun _ => ⟨fun h n k v hk hv => ?_, fun h p hp => ?_⟩
  · exact h (k, v) (List.mem_of_getElem? (List.getElem?_zip_eq_some.mpr ⟨hk, hv⟩))
  · obtain ⟨n, hn⟩ := List.mem_iff_getElem?.mp hp
    obtain ⟨hk, hv⟩ := List.getElem?_zip_eq_some.mp hn
    exact h n p.1 p.2 hk hv

theorem exists_of_length_eq_five {α : Type} : {l : List α} → l.length = 5 → ∃ a b c d e, l = [a, b, c, d, e]
  | [_, _, _, _, _], _ => ⟨_, _, _, _, _, rfl⟩

/-- A well-formed line has the operands of its mnemonic, so it stands for an instruction. -/
theorem AsmLine.exists_assemble {l : AsmLine} (h : l.wellFormed = true) : ∃ i, l.assemble = some i := by
  have hlen := ((AsmLine.wellFormed_iff l).mp h).1
  obtain ⟨mnemonic, operands⟩ := l
  cases mnemonic with
  | crrweird | crrweirdRc | mtcrrweird | mtcrweird | mcrfm | crweirder =>
    obtain ⟨_, _, _, _, _, rfl⟩ := exists_of_length_eq_five hlen
    exact ⟨_, if_pos h⟩
  | mfcrrweird | mfcrrweirdRc =>
    obtain ⟨_, _, _, _, rfl⟩ := List.length_eq_four.mp hlen
    exact ⟨_, if_pos h⟩
  | mtcri | mtcrset | mtcrclr =>
    obtain ⟨_, _, rfl⟩ := List.length_eq_two.mp hlen
    exact ⟨_, if_pos h⟩

theorem AsmLine.assemble_eq_none_iff (l : AsmLine) : l.assemble = none ↔ ¬ l.wellFormed = true := by
  constructor
  · intro hnone hwf
    obtain ⟨i, hi⟩ := exists_assemble hwf
    cases hnone.symm.trans hi
  · exact fun hwf => if_neg hwf

/-- Settles O9: an assembly error is a line that is not well formed, by its length or by an operand. -/
theorem assemblyErrorExactlyWhenIllFormed : Obligations.AssemblyErrorExactlyWhenIllFormed := by
  intro l
  rw [AsmLine.assemble_eq_none_iff, AsmLine.wellFormed_iff, not_and_or]
  push Not
  exact Iff.rfl

end Sys2Proof

namespace Sys2Proof.Machine

/-! The step at a word with a reserved bit set, and the pseudo-ops (R60, R66). -/

/-- No meaning is refused for reserved bits. -/
theorem exec_ne_reservedBits (i : Instr) (s : State) (op : Op) (w : InstrWord) :
    exec i s ≠ .refused (.reservedBits op w) := by
  obtain ⟨u, hexec, _⟩ := exec_complete i s
  rw [hexec]
  by_cases h : u.pc = topPc
  · simp [complete_refused h]
  · simp [complete_next h]

theorem stepWord_eq_reservedBits_iff {v w : InstrWord} {s : State} {op : Op} :
    stepWord v s = .refused (.reservedBits op w) ↔ v = w ∧ decode s.enc v = .reserved op := by
  unfold stepWord
  cases decode s.enc v with
  | instr i => simp [exec_ne_reservedBits]
  | reserved op' => simp [and_comm]
  | illegal => simp [raiseIllegal]
  | ambiguous => simp

/-- At an aligned pc the step is refused for reserved bits when decoding refuses the word there. -/
theorem step_eq_reservedBits_iff {s : State} (ha : s.pc.toNat % 4 = 0) {op : Op} {w : InstrWord} :
    step s = .refused (.reservedBits op w) ↔ s.fetch = some w ∧ decode s.enc w = .reserved op := by
  cases hfetch : s.fetch with
  | none =>
    rw [step_aligned_none ha hfetch, stepNoWord]
    split <;> simp
  | some v =>
    rw [step_aligned_word ha hfetch, stepWord_eq_reservedBits_iff, Option.some.injEq]
    exact and_congr_right fun h => by rw [h]

/-- Settles O39: the step is refused for reserved bits when decoding refuses the word, which O7 says when. -/
theorem reservedBitsRefuseTheStep : Obligations.ReservedBitsRefuseTheStep := by
  intro s op w ha he
  rw [step_eq_reservedBits_iff ha, reservedExactlyWhenAReservedBitIsSet s.enc he w op]

/-- Settles O23: a pseudo-op and its expansion match the same constant into the same field; any other instruction is its
own core instruction. -/
theorem pseudoOpsRunAsTheirExpansions : Obligations.PseudoOpsRunAsTheirExpansions := by
  intro i s
  cases i with
  | mtcri bf fmap => exact (exec_mtcri bf fmap s).trans (exec_mtcrweird_ra_zero bf false 15 (~~~fmap) s).symm
  | mtcrset bf fmsk => exact (exec_mtcrset bf fmsk s).trans (exec_mtcrweird_ra_zero bf true fmsk 0 s).symm
  | mtcrclr bf fmsk => exact (exec_mtcrclr bf fmsk s).trans (exec_mtcrweird_ra_zero bf true fmsk 15 s).symm
  | _ => rfl

end Sys2Proof.Machine

/-! From a CR field to a general register (40_cr_to_gpr.md): the values of crrweird and mfcrrweird (R80, R83, R85), what
the recording forms add (R81, R84), and the way back through mtcrrweird (41_gpr_to_cr.md R91). -/

namespace Sys2Proof.Machine

/-! What completing a write leaves, every part of the state. -/

section
variable {s : State} (hp : s.pc ≠ topPc)
include hp

theorem complete_setGpr (rt : GprNum) (v : Word) :
    ∃ t, complete (s.setGpr rt v) = .next t ∧ t.gpr rt = v ∧ (∀ i, i ≠ rt → t.gpr i = s.gpr i) ∧ t.cr = s.cr ∧
      t.pc = s.pc + 4 ∧ s.SameOutside t :=
  ⟨_, complete_next hp, setGpr_gpr_same s rt v, fun _ => setGpr_gpr_other s v, rfl, rfl, rfl, rfl, rfl, rfl,
    fun _ => rfl⟩

theorem complete_setGpr_record (rt : GprNum) (v : Word) :
    ∃ t, complete ((s.setGpr rt v).record v) = .next t ∧ t.gpr rt = v ∧ t.crf 0 = analyse v s.xerSo ∧
      (∀ i, i ≠ rt → t.gpr i = s.gpr i) ∧ (∀ k, k ≠ 0 → t.crf k = s.crf k) ∧ t.pc = s.pc + 4 ∧ s.SameOutside t :=
  ⟨_, complete_next hp, setGpr_gpr_same s rt v, record_crf_zero (s.setGpr rt v) v, fun _ => setGpr_gpr_other s v,
    fun _ => record_crf_other (s.setGpr rt v) v, rfl, rfl, rfl, rfl, rfl, fun _ => rfl⟩

theorem complete_setCrf (bf : FieldNum) (v : Nibble) :
    ∃ t, complete (s.setCrf bf v) = .next t ∧ t.crf bf = v ∧ (∀ k, k ≠ bf → t.crf k = s.crf k) ∧ t.x = s.x ∧
      t.pc = s.pc + 4 ∧ s.SameOutside t :=
  ⟨_, complete_next hp, setCrf_crf_same s bf v, fun _ => setCrf_crf_other s v, rfl, rfl, rfl, rfl, rfl, rfl,
    fun _ => rfl⟩

end

/-! The value of crrweird (R80). -/

theorem crrweirdValue_of_testHolds {s : State} {bfa : FieldNum} {m : Bool} {fmsk fmap : Nibble}
    (h : TestHolds m (s.crf bfa) fmsk fmap) : crrweirdValue s bfa m fmsk fmap = 1 := by
  rw [crrweirdValue, (testField_iff ..).mpr h, wordOfBit_true]

theorem crrweirdValue_of_not_testHolds {s : State} {bfa : FieldNum} {m : Bool} {fmsk fmap : Nibble}
    (h : ¬ TestHolds m (s.crf bfa) fmsk fmap) : crrweirdValue s bfa m fmsk fmap = 0 := by
  rw [← testField_iff, Bool.not_eq_true] at h
  rw [crrweirdValue, h, wordOfBit_false]

/-- Settles O12: RT receives the value of the test, and the write's frame is the rest. -/
theorem crrweirdWritesTheTest : Obligations.CrrweirdWritesTheTest := by
  intro rt bfa m fmsk fmap s hp
  obtain ⟨t, hexec, hrt, hframe⟩ := complete_setGpr hp rt (crrweirdValue s bfa m fmsk fmap)
  refine ⟨t, hexec, ?_, hframe⟩
  by_cases h : TestHolds m (s.crf bfa) fmsk fmap
  · exact .inl ⟨h, hrt.trans (crrweirdValue_of_testHolds h)⟩
  · exact .inr ⟨h, hrt.trans (crrweirdValue_of_not_testHolds h)⟩

/-- Settles O13: the recorded value is analyse of the 1 or 0 that RT receives, both taken from the old CR. -/
theorem crrweirdRcWritesTheTestAndRecords : Obligations.CrrweirdRcWritesTheTestAndRecords := by
  intro rt bfa m fmsk fmap s hp
  obtain ⟨t, hexec, hrt, hzero, hframe⟩ := complete_setGpr_record hp rt (crrweirdValue s bfa m fmsk fmap)
  refine ⟨t, hexec, ?_, hframe⟩
  by_cases h : TestHolds m (s.crf bfa) fmsk fmap
  · rw [crrweirdValue_of_testHolds h] at hrt hzero
    exact .inl ⟨h, hrt, hzero ▸ analyse_wordOfBit true s.xerSo⟩
  · rw [crrweirdValue_of_not_testHolds h] at hrt hzero
    exact .inr ⟨h, hrt, hzero ▸ analyse_wordOfBit false s.xerSo⟩

/-! The value of mfcrrweird (R83). -/

theorem mfcrrweirdValue_getLsbD (s : State) (bfa : FieldNum) (fmsk fmap : Nibble) (j : Nat) :
    (mfcrrweirdValue s bfa fmsk fmap).getLsbD j = (decide (j < 4) && matchBit (s.crf bfa) fmsk fmap j) := by
  rw [mfcrrweirdValue, wordOfNibble_getLsbD, match4_getLsbD]
  by_cases hj : j < 4
  · rw [decide_eq_true hj, Bool.true_and]
  · rw [decide_eq_false hj, Bool.false_and, matchBit_of_ge _ _ _ (Nat.le_of_not_lt hj)]

/-- Settles O14: RT receives the match of the four bits, and the write's frame is the rest. -/
theorem mfcrrweirdWritesTheMatchBits : Obligations.MfcrrweirdWritesTheMatchBits := by
  intro rt bfa fmsk fmap s hp
  obtain ⟨t, hexec, hrt, hframe⟩ := complete_setGpr hp rt (mfcrrweirdValue s bfa fmsk fmap)
  exact ⟨t, hexec, fun j => hrt ▸ mfcrrweirdValue_getLsbD s bfa fmsk fmap j, hframe⟩

/-- Settles O15: the recorded value is analyse of the four-bit match that RT receives, both taken from the old CR. -/
theorem mfcrrweirdRcWritesTheMatchBitsAndRecords : Obligations.MfcrrweirdRcWritesTheMatchBitsAndRecords := by
  intro rt bfa fmsk fmap s hp
  obtain ⟨t, hexec, hrt, hzero, hframe⟩ := complete_setGpr_record hp rt (mfcrrweirdValue s bfa fmsk fmap)
  refine ⟨t, hexec, fun j => hrt ▸ mfcrrweirdValue_getLsbD s bfa fmsk fmap j, ?_, hframe⟩
  rw [hzero, hrt]
  exact analyse_wordOfNibble _ _

/-! The two values on one field (R85). -/

@[simp] theorem wordOfNibble_toNat (n : Nibble) : (wordOfNibble n).toNat = n.toNat :=
  BitVec.toNat_setWidth_of_le (by omega)

theorem wordOfNibble_eq_zero_iff {n : Nibble} : wordOfNibble n = 0 ↔ n = 0 := by
  rw [← BitVec.toNat_inj, ← BitVec.toNat_inj, wordOfNibble_toNat]
  rfl

theorem crrweirdValue_eq_one_iff {s : State} {bfa : FieldNum} {m : Bool} {fmsk fmap : Nibble} :
    crrweirdValue s bfa m fmsk fmap = 1 ↔ testField m (s.crf bfa) fmsk fmap = true := by
  rw [crrweirdValue]
  cases testField m (s.crf bfa) fmsk fmap <;> decide

/-- crrweird's answer as a reduction of mfcrrweird's result: "not zero" with M, "equal to fmsk" without. -/
theorem crrweirdValue_eq_one_iff_mfcrrweirdValue (s : State) (bfa : FieldNum) (m : Bool) (fmsk fmap : Nibble) :
    crrweirdValue s bfa m fmsk fmap = 1 ↔
      if m then mfcrrweirdValue s bfa fmsk fmap ≠ 0 else (mfcrrweirdValue s bfa fmsk fmap).toNat = fmsk.toNat := by
  rw [crrweirdValue_eq_one_iff, mfcrrweirdValue, wordOfNibble_toNat, BitVec.toNat_inj, ne_eq, wordOfNibble_eq_zero_iff]
  cases m with
  | false => simp [testField]
  | true => simp [testField]

/-- Settles O24: each run writes its value of one and the same field, and one value reduces to the other. -/
theorem crrweirdReducesMfcrrweird : Obligations.CrrweirdReducesMfcrrweird := by
  intro rt rt' bfa m fmsk fmap s s' hp hp' hcr
  obtain ⟨t, hexec, hrt, _⟩ := complete_setGpr hp rt (crrweirdValue s bfa m fmsk fmap)
  obtain ⟨t', hexec', hrt', _⟩ := complete_setGpr hp' rt' (mfcrrweirdValue s' bfa fmsk fmap)
  refine ⟨t, t', hexec, hexec', ?_⟩
  have hbfa : s.crf bfa = s'.crf bfa := congrArg (crfOf · bfa) hcr
  rw [hrt, hrt', ← mfcrrweirdValue_congr hbfa]
  exact crrweirdValue_eq_one_iff_mfcrrweirdValue s bfa m fmsk fmap

/-! A field moved with full masks (R83, 41_gpr_to_cr.md R91). -/

@[simp] theorem match4_full (creg : Nibble) : match4 creg 0b1111 0b1111 = creg :=
  (BitVec.and_allOnes (x := ~~~0b1111 ^^^ creg)).trans BitVec.zero_xor

/-- Where every bit is selected none is left for the old field. -/
@[simp] theorem mergeField_full (m : Bool) (result old : Nibble) : mergeField m result old 0b1111 = result := by
  cases m with
  | false => rfl
  | true => exact (congrArg (result ||| ·) (BitVec.and_zero (x := old))).trans BitVec.or_zero

theorem lowNibble_wordOfNibble (n : Nibble) : lowNibble (wordOfNibble n) = n :=
  nibble_ext fun j hj => by rw [lowNibble_getLsbD, wordOfNibble_getLsbD, decide_eq_true hj, Bool.true_and]

/-- What the second instruction takes from a register into which the first moved a field. -/
theorem lowNibble_ra0_of_gpr_eq {t : State} {r : GprNum} {n : Nibble} (h : t.gpr r = wordOfNibble n) :
    lowNibble (t.ra0 r) = if r = 0 then 0 else n := by
  rw [State.ra0, h]
  split
  case isTrue => exact lowNibble_zero
  case isFalse => exact lowNibble_wordOfNibble n

/-- Settles O29: full masks make both moves the identity on the four bits, and x[0] is written but not read. -/
theorem fieldTravelsThroughARegister : Obligations.FieldTravelsThroughARegister := by
  intro r k k' m s hp hp4
  obtain ⟨t, hexec, hr, _, _, hpc, _⟩ := complete_setGpr hp r (mfcrrweirdValue s k 0b1111 0b1111)
  obtain ⟨u, hexec', hk', _⟩ := complete_setCrf (hpc ▸ hp4) k'
    (mergeField m (match4 (lowNibble (t.ra0 r)) 0b1111 0b1111) (t.crf k') 0b1111)
  refine ⟨t, u, hexec, hexec', ?_⟩
  rw [mfcrrweirdValue, match4_full] at hr
  rw [hk', mergeField_full, match4_full, lowNibble_ra0_of_gpr_eq hr]

end Sys2Proof.Machine

/-! From a general register to a CR field (41_gpr_to_cr.md): the field that mtcrrweird, mtcrweird and the pseudo-ops
write (R90 to R92, R96 to R98), the corner cases of the mask, and what M=0 leaves unread (R93). -/

namespace Sys2Proof.Machine

/-! The field written, bit by bit (R90 to R92). -/

section
variable (s : State) (ra : GprNum) (m : Bool) (old fmsk fmap : Nibble) {j : Nat} (hj : j < 4)
include hj

theorem mergeField_match_lowNibble_ra0_getLsbD :
    (mergeField m (match4 (lowNibble (s.ra0 ra)) fmsk fmap) old fmsk).getLsbD j =
      if fmsk.getLsbD j then ((!decide (ra = 0) && (s.gpr ra).getLsbD j) == fmap.getLsbD j)
      else m && old.getLsbD j := by
  rw [mergeField_match_getLsbD _ _ _ _ _ hj, lowNibble_getLsbD, decide_eq_true hj, Bool.true_and, ra0_getLsbD]

theorem mergeField_match_lowBitFourTimes_ra0_getLsbD :
    (mergeField m (match4 (lowBitFourTimes (s.ra0 ra)) fmsk fmap) old fmsk).getLsbD j =
      if fmsk.getLsbD j then ((!decide (ra = 0) && (s.gpr ra).getLsbD 0) == fmap.getLsbD j)
      else m && old.getLsbD j := by
  rw [mergeField_match_getLsbD _ _ _ _ _ hj, lowBitFourTimes_getLsbD, decide_eq_true hj, Bool.true_and, ra0_getLsbD]

end

/-- The last lines that mtcrrweird and mtcrweird share, with their frame. -/
theorem complete_matchIntoField {s : State} (hp : s.pc ≠ topPc) (bf : FieldNum) (creg : Nibble) (m : Bool)
    (fmsk fmap : Nibble) :
    ∃ t, complete (s.matchIntoField bf creg m fmsk fmap) = .next t ∧
      t.crf bf = mergeField m (match4 creg fmsk fmap) (s.crf bf) fmsk ∧ (∀ k, k ≠ bf → t.crf k = s.crf k) ∧
      t.x = s.x ∧ t.pc = s.pc + 4 ∧ s.SameOutside t :=
  complete_setCrf hp bf _

/-- Settles O16: field BF receives the match of the four low bits of (RA|0), and the write's frame is the rest. -/
theorem mtcrrweirdWritesTheField : Obligations.MtcrrweirdWritesTheField := by
  intro bf ra m fmsk fmap s hp
  obtain ⟨t, hexec, hbf, hframe⟩ := complete_matchIntoField hp bf (lowNibble (s.ra0 ra)) m fmsk fmap
  exact ⟨t, hexec, fun _ hj => hbf ▸ mergeField_match_lowNibble_ra0_getLsbD s ra m _ fmsk fmap hj, hframe⟩

/-- Settles O17: field BF receives the match of the one low bit of (RA|0), and the write's frame is the rest. -/
theorem mtcrweirdWritesTheField : Obligations.MtcrweirdWritesTheField := by
  intro bf ra m fmsk fmap s hp
  obtain ⟨t, hexec, hbf, hframe⟩ := complete_matchIntoField hp bf (lowBitFourTimes (s.ra0 ra)) m fmsk fmap
  exact ⟨t, hexec, fun _ hj => hbf ▸ mergeField_match_lowBitFourTimes_ra0_getLsbD s ra m _ fmsk fmap hj, hframe⟩

/-! The pseudo-ops: the match of the source 0 under each expansion's operands (R96 to R98). -/

theorem nibble_full_getLsbD {j : Nat} (hj : j < 4) : (15 : Nibble).getLsbD j = true := by
  revert j
  decide

/-- A source bit 0 matches where fmap's complement, here the immediate, is 1. -/
theorem match4_zero_full_not (v : Nibble) : match4 0 15 (~~~v) = v :=
  nibble_ext fun j hj => by
    rw [match4_getLsbD, matchBit, nibble_full_getLsbD hj, BitVec.getLsbD_not, decide_eq_true hj]
    simp

theorem mergeField_match_zero_zero (old fmsk : Nibble) :
    mergeField true (match4 0 fmsk 0) old fmsk = old ||| fmsk :=
  nibble_ext fun j hj => by
    rw [mergeField_match_getLsbD _ _ _ _ _ hj, BitVec.getLsbD_or]
    cases fmsk.getLsbD j <;> simp

theorem mergeField_match_zero_full (old fmsk : Nibble) :
    mergeField true (match4 0 fmsk 15) old fmsk = old &&& ~~~fmsk :=
  nibble_ext fun j hj => by
    rw [mergeField_match_getLsbD _ _ _ _ _ hj, nibble_full_getLsbD hj, BitVec.getLsbD_and, BitVec.getLsbD_not,
      decide_eq_true hj]
    cases fmsk.getLsbD j <;> simp

/-- Settles O20: with every bit selected the match of 0 against the complement is the immediate. -/
theorem mtcriLoadsTheField : Obligations.MtcriLoadsTheField := by
  intro bf fmap s hp
  obtain ⟨t, hnext, hbf, hframe⟩ := complete_matchIntoField hp bf 0 false 15 (~~~fmap)
  exact ⟨t, (exec_mtcri bf fmap s).trans hnext, by rw [hbf, mergeField_full, match4_zero_full_not], hframe⟩

/-- Settles O21: 0 matches fmap 0 at every selected bit, and M keeps the others. -/
theorem mtcrsetSetsTheSelectedBits : Obligations.MtcrsetSetsTheSelectedBits := by
  intro bf fmsk s hp
  obtain ⟨t, hnext, hbf, hframe⟩ := complete_matchIntoField hp bf 0 true fmsk 0
  exact ⟨t, (exec_mtcrset bf fmsk s).trans hnext, hbf.trans (mergeField_match_zero_zero _ fmsk), hframe⟩

/-- Settles O22: 0 matches fmap 15 at no selected bit, and M keeps the others. -/
theorem mtcrclrClearsTheSelectedBits : Obligations.MtcrclrClearsTheSelectedBits := by
  intro bf fmsk s hp
  obtain ⟨t, hnext, hbf, hframe⟩ := complete_matchIntoField hp bf 0 true fmsk 15
  exact ⟨t, (exec_mtcrclr bf fmsk s).trans hnext, hbf.trans (mergeField_match_zero_full _ fmsk), hframe⟩

/-- Settles O4: the complement of a nibble is 15 minus it, and each pseudo-op's word has its expansion's fields. -/
theorem pseudoOpWordsAreTheirExpansions : Obligations.PseudoOpWordsAreTheirExpansions :=
  fun _ _ v => ⟨⟨~~~v, BitVec.toNat_not, rfl⟩, rfl, rfl⟩

/-! The full mask and the empty mask (R91, R92 and 42_cr_to_cr.md R100, corner cases). -/

theorem matchIntoField_full (s : State) (bf : FieldNum) (creg : Nibble) (m : Bool) (fmap : Nibble) :
    s.matchIntoField bf creg m 0b1111 fmap = s.setCrf bf (match4 creg 0b1111 fmap) := by
  rw [State.matchIntoField, mergeField_full]

theorem mcrfmValue_full (s : State) (bf bfa : FieldNum) (m : Bool) (fmap : Nibble) :
    mcrfmValue s bf bfa m 0b1111 fmap = (0b1111 &&& s.crf bfa) ^^^ fmap := by
  rw [mcrfmValue, mergeField_full]

/-- Settles O26: with every bit selected the value each of the three writes is one in which M does not occur. -/
theorem fullMaskMakesModeIrrelevant : Obligations.FullMaskMakesModeIrrelevant := by
  intro bf bfa ra fmap s
  have hmatch := fun creg =>
    (matchIntoField_full s bf creg true fmap).trans (matchIntoField_full s bf creg false fmap).symm
  have hmcrfm := (mcrfmValue_full s bf bfa true fmap).trans (mcrfmValue_full s bf bfa false fmap).symm
  exact ⟨congrArg complete (hmatch _), congrArg complete (hmatch _),
    congrArg (fun v => complete (s.setCrf bf v)) hmcrfm⟩

/-- Where no bit is selected the old field is kept with M and cleared without. -/
theorem mergeField_match_empty (m : Bool) (creg old fmap : Nibble) :
    mergeField m (match4 creg 0 fmap) old 0 = if m then old else 0 :=
  nibble_ext fun j hj => by
    rw [mergeField_match_getLsbD _ _ _ _ _ hj]
    cases m <;> simp

theorem mcrfmValue_overwrite_empty (s : State) (bf bfa : FieldNum) (fmap : Nibble) :
    mcrfmValue s bf bfa false 0 fmap = fmap :=
  nibble_ext fun j hj => by
    rw [mcrfmValue_getLsbD _ _ _ _ _ _ hj]
    simp

/-- A field at its old value, with every other field unchanged, leaves CR unchanged. -/
theorem cr_eq_of_crf_eq {s t : State} {bf : FieldNum} (hbf : t.crf bf = s.crf bf)
    (hother : ∀ k, k ≠ bf → t.crf k = s.crf k) : t.cr = s.cr :=
  cr_ext fun k => if hk : k = bf then hk ▸ hbf else hother k hk

section
variable {s : State} (hp : s.pc ≠ topPc) (bf : FieldNum) (creg fmap : Nibble)
include hp

theorem complete_matchIntoField_empty_clears :
    ∃ t, complete (s.matchIntoField bf creg false 0 fmap) = .next t ∧ t.crf bf = 0 := by
  obtain ⟨t, hnext, hbf, _⟩ := complete_matchIntoField hp bf creg false 0 fmap
  exact ⟨t, hnext, hbf.trans (mergeField_match_empty false creg _ fmap)⟩

theorem complete_matchIntoField_empty_keeps :
    ∃ t, complete (s.matchIntoField bf creg true 0 fmap) = .next t ∧ t.cr = s.cr := by
  obtain ⟨t, hnext, hbf, hother, _⟩ := complete_matchIntoField hp bf creg true 0 fmap
  exact ⟨t, hnext, cr_eq_of_crf_eq (hbf.trans (mergeField_match_empty true creg _ fmap)) hother⟩

end

/-- Settles O27: with no bit selected the source plays no part, so mtcrrweird and mtcrweird share one argument, and only
fmap is left of mcrfm's value. -/
theorem emptyMaskClearsOrKeeps : Obligations.EmptyMaskClearsOrKeeps := by
  intro bf bfa ra fmap s hp
  have hclear := fun creg => complete_matchIntoField_empty_clears hp bf creg fmap
  have hkeep := fun creg => complete_matchIntoField_empty_keeps hp bf creg fmap
  obtain ⟨t, hnext, hbf, _⟩ := complete_setCrf hp bf (mcrfmValue s bf bfa false 0 fmap)
  exact ⟨hclear _, hkeep _, hclear _, hkeep _, t, hnext, hbf.trans (mcrfmValue_overwrite_empty s bf bfa fmap)⟩

/-! With M=0 the target is written and not read (R93). -/

/-- Two runs that write one value to field BF of states that agree elsewhere leave the same CR. -/
theorem complete_setCrf_cr_eq {s s' : State} (hp : s.pc ≠ topPc) (hp' : s'.pc ≠ topPc) {bf : FieldNum}
    (hother : ∀ k, k ≠ bf → s.crf k = s'.crf k) {v v' : Nibble} (hv : v = v') :
    ∃ t t', complete (s.setCrf bf v) = .next t ∧ complete (s'.setCrf bf v') = .next t' ∧ t.cr = t'.cr := by
  obtain ⟨t, hnext, hbf, hframe, _⟩ := complete_setCrf hp bf v
  obtain ⟨t', hnext', hbf', hframe', _⟩ := complete_setCrf hp' bf v'
  refine ⟨t, t', hnext, hnext', cr_eq_of_crf_eq (by rw [hbf, hbf', hv]) fun k hk => ?_⟩
  rw [hframe k hk, hframe' k hk, hother k hk]

/-- Settles O32: without M the value written does not mention the old target, so it is the same in both states. -/
theorem overwriteDoesNotReadTheTarget : Obligations.OverwriteDoesNotReadTheTarget := by
  intro bf bfa ra fmsk fmap s s' hp hp' hx hother
  have hra := ra0_congr hx ra
  have hold : false = true → s.crf bf = s'.crf bf := fun h => absurd h Bool.false_ne_true
  refine ⟨complete_setCrf_cr_eq hp hp' hother ?mtcrrweird, complete_setCrf_cr_eq hp hp' hother ?mtcrweird,
    fun hne => complete_setCrf_cr_eq hp hp' hother ?mcrfm⟩
  case mtcrrweird => rw [hra, mergeField_congr hold]
  case mtcrweird => rw [hra, mergeField_congr hold]
  case mcrfm => exact mcrfmValue_congr (hother bfa hne) hold fmsk fmap

/-! mtcrrweird beside mtcrweird (R90). -/

theorem lowNibble_eq_lowBitFourTimes {a b : Word} (h : ∀ j, j < 4 → a.getLsbD j = b.getLsbD 0) :
    lowNibble a = lowBitFourTimes b :=
  nibble_ext fun j hj => by rw [lowNibble_getLsbD, lowBitFourTimes_getLsbD, h j hj]

/-- A run of the lines that the two share: the whole new field, and its bits that fmsk does not select. -/
theorem complete_matchIntoField_next {s t : State} {bf : FieldNum} {creg : Nibble} {m : Bool} {fmsk fmap : Nibble}
    (h : complete (s.matchIntoField bf creg m fmsk fmap) = .next t) :
    t.crf bf = mergeField m (match4 creg fmsk fmap) (s.crf bf) fmsk ∧
      ∀ j, j < 4 → fmsk.getLsbD j = false → (t.crf bf).getLsbD j = (m && (s.crf bf).getLsbD j) := by
  obtain ⟨hbf, _⟩ := complete_setCrf_next h
  refine ⟨hbf, fun j hj hunselected => ?_⟩
  rw [hbf, mergeField_match_getLsbD _ _ _ _ _ hj, if_neg (Bool.eq_false_iff.mp hunselected)]

/-- Settles O60: the operands stand in the same fields of both words; both runs merge a match of four bits, which are
the same four where the source of the one repeats the low bit of the other's. -/
theorem mtcrweirdRepeatsTheLowBit : Obligations.MtcrweirdRepeatsTheLowBit := by
  refine ⟨?words, ?runs⟩
  case words =>
    rintro e bf ra m fmsk fmap _ _ rfl rfl
    rw [fieldsOfWord_encode, fieldsOfWord_encode]
    exact ⟨rfl, rfl, rfl, rfl, rfl⟩
  case runs =>
    intro bf ra ra' m fmsk fmap s t s' t' h h'
    obtain ⟨hbf, hunselected⟩ := complete_matchIntoField_next h
    obtain ⟨hbf', hunselected'⟩ := complete_matchIntoField_next h'
    refine ⟨fun hold hbits => ?_, fun j hj hf => ⟨hunselected j hj hf, hunselected' j hj hf⟩⟩
    rw [hbf, hbf', hold, lowNibble_eq_lowBitFourTimes hbits]

end Sys2Proof.Machine

/-! From a CR field to a CR field and to a CR bit (42_cr_to_cr.md): the field that mcrfm writes (R100), the bit that
crweirder writes (R103) beside crrweird's register (40_cr_to_gpr.md R80), and the inversion of a field in place. -/

namespace Sys2Proof.Machine

/-! The field that mcrfm writes (R100). -/

/-- Settles O18: field BF receives the value whose bits are the per-bit table, and the write's frame is the rest. -/
theorem mcrfmWritesTheField : Obligations.McrfmWritesTheField := by
  intro bf bfa m fmsk fmap s hp
  obtain ⟨t, hexec, hbf, hframe⟩ := complete_setCrf hp bf (mcrfmValue s bf bfa m fmsk fmap)
  exact ⟨t, hexec, fun _ hj => hbf ▸ mcrfmValue_getLsbD s bf bfa m fmsk fmap hj, hframe⟩

/-- With M and no bit selected the whole old target is kept, then inverted where fmap is 1. -/
theorem mcrfmValue_keep_empty (s : State) (bf bfa : FieldNum) (fmap : Nibble) :
    mcrfmValue s bf bfa true 0 fmap = s.crf bf ^^^ fmap :=
  nibble_ext fun j hj => by
    rw [mcrfmValue_getLsbD _ _ _ _ _ _ hj, BitVec.getLsbD_xor]
    simp

/-- A run of mcrfm that selects no bit, with M: the old target inverted by fmap. -/
theorem exec_mcrfm_keep_empty {s : State} (hp : s.pc ≠ topPc) (bf bfa : FieldNum) (fmap : Nibble) :
    ∃ t, exec (.mcrfm bf bfa true 0 fmap) s = .next t ∧ t.crf bf = s.crf bf ^^^ fmap ∧
      (∀ k, k ≠ bf → t.crf k = s.crf k) ∧ t.x = s.x ∧ t.pc = s.pc + 4 ∧ s.SameOutside t := by
  rw [← mcrfmValue_keep_empty s bf bfa fmap]
  exact complete_setCrf hp bf _

/-- Settles O30: the second inversion by fmap undoes the first, and neither run touches another field or a register. -/
theorem invertingTwiceRestores : Obligations.InvertingTwiceRestores := by
  intro k fmap s hp hp4
  obtain ⟨t, hexec, hk, hother, hx, hpc, _⟩ := exec_mcrfm_keep_empty hp k k fmap
  obtain ⟨u, hexec', hk', hother', hx', _⟩ := exec_mcrfm_keep_empty (hpc ▸ hp4) k k fmap
  have hrestored : u.crf k = s.crf k := by
    rw [hk', hk, BitVec.xor_assoc, BitVec.xor_self, BitVec.xor_zero]
  exact ⟨t, u, hexec, hexec',
    cr_eq_of_crf_eq hrestored fun i hi => (hother' i hi).trans (hother i hi), hx'.trans hx⟩

/-! The bit that crweirder writes (R103). -/

/-- What completing the write of a CR bit leaves, every part of the state. -/
theorem complete_setCrBit {s : State} (hp : s.pc ≠ topPc) (bt : CrBitNum) (v : Bool) :
    ∃ t, complete (s.setCrBit bt v) = .next t ∧ t.crBit bt = v ∧ (∀ b, b ≠ bt → t.crBit b = s.crBit b) ∧
      t.x = s.x ∧ t.pc = s.pc + 4 ∧ s.SameOutside t :=
  ⟨_, complete_next hp, setCrBit_crBit_same s bt v, fun _ => setCrBit_crBit_other s v, rfl, rfl, rfl, rfl, rfl, rfl,
    fun _ => rfl⟩

/-- Settles O19: bit BT receives the one-bit answer of the test, and the write's frame is the rest. -/
theorem crweirderWritesTheBit : Obligations.CrweirderWritesTheBit := by
  intro bt bfa m fmsk fmap s hp
  obtain ⟨t, hexec, hbt, hframe⟩ := complete_setCrBit hp bt (testField m (s.crf bfa) fmsk fmap)
  exact ⟨t, hexec, hbt ▸ testField_iff m (s.crf bfa) fmsk fmap, hframe⟩

@[simp] theorem wordOfBit_toNat (b : Bool) : (wordOfBit b).toNat = b.toNat := by
  cases b <;> rfl

/-- Settles O25: the test of one and the same field, once as a bit and once widened to a word. -/
theorem crweirderAgreesWithCrrweird : Obligations.CrweirderAgreesWithCrrweird := by
  intro rt bt bfa m fmsk fmap s s' hp hp' hcr
  obtain ⟨t, hexec, hrt, _⟩ := complete_setGpr hp rt (crrweirdValue s bfa m fmsk fmap)
  obtain ⟨t', hexec', hbt, _⟩ := complete_setCrBit hp' bt (testField m (s'.crf bfa) fmsk fmap)
  refine ⟨t, t', hexec, hexec', ?_⟩
  have hbfa : s.crf bfa = s'.crf bfa := congrArg (crfOf · bfa) hcr
  rw [hbt, hrt, crrweirdValue, wordOfBit_toNat, hbfa]

end Sys2Proof.Machine

/-! The prefixed loops (45_vectorized.md): what a body that writes one register per element leaves in a register, the
elements of sv.crrweird (R113, R114) and of sv.mfcrrweird (R115 to R117), and the refused cases (R118, R120). -/

namespace Sys2Proof.Machine

/-! A loop body that writes one register per element. -/

/-- The arrays have the same fields, and as many registers: what reading a source and writing in range rest on. -/
structure SvArrays.SameShape (a b : SvArrays) : Prop where
  crf : b.crf = a.crf
  length : b.x.length = a.x.length

theorem SvArrays.SameShape.field {a b : SvArrays} (h : a.SameShape b) (k : Nat) : b.field k = a.field k := by
  rw [SvArrays.field, SvArrays.field, h.crf]

/-- Element `i` of the loop body writes register `dest i` and no other part of the arrays. -/
def WritesAt (f : SvArrays → Nat → SvArrays) (dest : Nat → Nat) : Prop := ∀ b i, ∃ v, f b i = b.setGpr (dest i) v

section
variable {f : SvArrays → Nat → SvArrays} {dest : Nat → Nat} (hf : WritesAt f dest)
include hf

theorem WritesAt.gpr_other (b : SvArrays) {i q : Nat} (hq : dest i ≠ q) : (f b i).gpr q = b.gpr q := by
  obtain ⟨v, hv⟩ := hf b i
  rw [hv, SvArrays.setGpr_gpr_other b v hq.symm]

theorem WritesAt.sameShape {a b : SvArrays} (h : a.SameShape b) (i : Nat) : a.SameShape (f b i) := by
  obtain ⟨v, hv⟩ := hf b i
  rw [hv]
  exact ⟨h.crf, (SvArrays.setGpr_length b (dest i) v).trans h.length⟩

theorem WritesAt.foldl_sameShape (a : SvArrays) (n : Nat) : a.SameShape ((List.range n).foldl f a) :=
  foldl_range_induction (fun _ b => a.SameShape b) ⟨rfl, rfl⟩ fun k _ _ hb => hf.sameShape hb k

/-- What every element that writes register `q` keeps of it, the loop keeps. -/
theorem WritesAt.foldl_kept {a : SvArrays} {n q : Nat} (P : Word → Prop) (h0 : P (a.gpr q))
    (hkeep : ∀ b k, k < n → dest k = q → a.SameShape b → P (b.gpr q) → P ((f b k).gpr q)) :
    P (((List.range n).foldl f a).gpr q) := by
  refine (foldl_range_induction (fun _ b => a.SameShape b ∧ P (b.gpr q)) ⟨⟨rfl, rfl⟩, h0⟩ ?_).2
  rintro k b hk ⟨hshape, hb⟩
  refine ⟨hf.sameShape hshape k, ?_⟩
  by_cases hq : dest k = q
  · exact hkeep b k hk hq hshape hb
  · rwa [hf.gpr_other b hq]

/-- What element `i` makes true of its register, and every later element that writes it keeps, the loop makes true. -/
theorem WritesAt.foldl_written {a : SvArrays} {n i : Nat} (hi : i < n) (P : Word → Prop)
    (hwrite : ∀ b, a.SameShape b → P ((f b i).gpr (dest i)))
    (hkeep : ∀ b k, i < k → k < n → dest k = dest i → a.SameShape b → P (b.gpr (dest i)) →
      P ((f b k).gpr (dest i))) :
    P (((List.range n).foldl f a).gpr (dest i)) := by
  refine (foldl_range_induction (fun k b => a.SameShape b ∧ (i < k → P (b.gpr (dest i))))
    ⟨⟨rfl, rfl⟩, fun h => absurd h (Nat.not_lt_zero i)⟩ ?_).2 hi
  rintro k b hk ⟨hshape, hb⟩
  refine ⟨hf.sameShape hshape k, fun hik => ?_⟩
  obtain hlt | rfl := Nat.lt_succ_iff_lt_or_eq.mp hik
  · by_cases hq : dest k = dest i
    · exact hkeep b k hlt hk hq hshape (hb hlt)
    · rw [hf.gpr_other b hq]
      exact hb hlt
  · exact hwrite b hshape

theorem WritesAt.foldl_gpr_other (a : SvArrays) {n q : Nat} (hq : ∀ i, i < n → q ≠ dest i) :
    ((List.range n).foldl f a).gpr q = a.gpr q :=
  hf.foldl_kept (· = a.gpr q) rfl fun _ k hk h => absurd h.symm (hq k hk)

end

/-! The elements that run, and the destination of each (R113, R116). -/

theorem svPackCount_pos (elwidth : BitVec 2) : 0 < svPackCount elwidth := Nat.two_pow_pos _

theorem svPackCount_le (elwidth : BitVec 2) : svPackCount elwidth ≤ 8 := by
  revert elwidth
  decide

theorem svElements_vector {c : SvContext} (hv : c.rtIsVec = true) : svElements c = List.range c.vl := by
  simp [svElements, hv]

theorem svElements_scalar {c : SvContext} (hv : c.rtIsVec = false) :
    svElements c = List.range (if c.mapreduce then c.vl else min c.vl 1) := by
  simp [svElements, hv]

theorem scalar_not_too_long {c : SvContext} {limit : Nat} (h : (if c.mapreduce then c.vl else min c.vl 1) ≤ limit) :
    ¬ (c.rtIsVec = false ∧ c.mapreduce = true ∧ limit < c.vl) := by
  rintro ⟨-, hm, hlong⟩
  rw [if_pos hm] at h
  omega

theorem svCrrweirdDest_vector {c : SvContext} (hv : c.rtIsVec = true) (rt i : Nat) :
    svCrrweirdDest c rt i = (rt + i / svPackCount c.bbElwidth, i % svPackCount c.bbElwidth) := by
  rw [svCrrweirdDest, if_pos hv]

theorem svCrrweirdDest_scalar {c : SvContext} (hv : c.rtIsVec = false) (rt i : Nat) :
    svCrrweirdDest c rt i = (rt, i) := by
  rw [svCrrweirdDest, hv, if_neg Bool.false_ne_true]

theorem svCrrweirdDest_injective (c : SvContext) (rt : Nat) : Function.Injective (svCrrweirdDest c rt) := by
  intro i k h
  cases hv : c.rtIsVec with
  | false => simpa [svCrrweirdDest_scalar hv] using h
  | true =>
    simp only [svCrrweirdDest_vector hv, Prod.mk.injEq, Nat.add_left_cancel_iff] at h
    rw [← Nat.div_add_mod i, h.1, h.2, Nat.div_add_mod]

theorem svCrrweirdDest_vector_pos_lt {c : SvContext} (hv : c.rtIsVec = true) (rt i : Nat) :
    (svCrrweirdDest c rt i).2 < 8 := by
  rw [svCrrweirdDest_vector hv]
  exact (Nat.mod_lt i (svPackCount_pos _)).trans_le (svPackCount_le _)

/-- A 64-bit element holds every packing count, so the two loops share their destinations. -/
theorem svNibbleCount_default (bbElwidth : BitVec 2) : svNibbleCount 0 bbElwidth = svPackCount bbElwidth := by
  revert bbElwidth
  decide

theorem svMfcrrweirdDest_eq {c : SvContext} (hw : c.rtElwidth = 0) (rt i : Nat) :
    svMfcrrweirdDest c rt i = svCrrweirdDest c rt i := by
  rw [svMfcrrweirdDest, svCrrweirdDest, hw, svPackIndex, svNibbleCount_default]

/-! The loop of sv.crrweird (R113, R114). -/

section
variable (c : SvContext) (rt bb : Nat) (m : Bool) (fmsk fmap : Nibble)

theorem svCrrweird_next {a : SvArrays} {n : Nat} (hw : c.rtElwidth = 0)
    (hlong : ¬ (c.rtIsVec = false ∧ c.mapreduce = true ∧ 64 < c.vl)) (he : svElements c = List.range n)
    (hsrc : ∀ i, i < n → svSource c bb i < a.crf.length) (hdest : ∀ i, i < n → (svCrrweirdDest c rt i).1 < a.x.length) :
    svExec (.crrweird rt bb m fmsk fmap) c a =
      .next (svOpenBits c rt ((List.range n).foldl (svCrrweirdElement c rt bb m fmsk fmap) a)) := by
  have hrange : svInRange c a bb (fun i => (svCrrweirdDest c rt i).1) = true := by
    rw [svInRange_iff, he]
    exact fun i hi => ⟨hsrc i (List.mem_range.mp hi), hdest i (List.mem_range.mp hi)⟩
  rw [svExec, svCrrweird, if_neg (not_not_intro hw), if_neg hlong, hrange, if_neg (by decide), he]

theorem svCrrweirdElement_writesAt :
    WritesAt (svCrrweirdElement c rt bb m fmsk fmap) fun i => (svCrrweirdDest c rt i).1 :=
  fun _ _ => ⟨_, rfl⟩

/-- Bit by bit, what element `i` leaves in its register: its answer, and of the others those it keeps. -/
theorem svCrrweirdElement_getLsbD {b : SvArrays} {i : Nat} (hdest : (svCrrweirdDest c rt i).1 < b.x.length)
    (hpos : (svCrrweirdDest c rt i).2 < 64) (j : Nat) :
    ((svCrrweirdElement c rt bb m fmsk fmap b i).gpr (svCrrweirdDest c rt i).1).getLsbD j =
      if j = (svCrrweirdDest c rt i).2 then testField m (b.field (svSource c bb i)) fmsk fmap
      else (!c.rtIsVec || decide (j < svPackCount c.bbElwidth)) && (b.gpr (svCrrweirdDest c rt i).1).getLsbD j := by
  rw [svCrrweirdElement, SvArrays.setGpr_gpr_same _ _ hdest, putBit_getLsbD _ _ hpos]
  cases c.rtIsVec with
  | false => rfl
  | true => rw [if_pos rfl, lowBits_getLsbD, Bool.not_true, Bool.false_or]

/-- The bit of an element is one that the elements keep: it lies in the packing group. -/
theorem svCrrweirdDest_keeps_pos (i : Nat) :
    (!c.rtIsVec || decide ((svCrrweirdDest c rt i).2 < svPackCount c.bbElwidth)) = true := by
  cases hv : c.rtIsVec with
  | false => rfl
  | true => simpa [svCrrweirdDest_vector hv] using Nat.mod_lt i (svPackCount_pos _)

section
variable {a : SvArrays} {n : Nat} (hdest : ∀ i, i < n → (svCrrweirdDest c rt i).1 < a.x.length)
  (hpos : ∀ i, i < n → (svCrrweirdDest c rt i).2 < 64)
include hdest hpos

/-- The loop puts the answer of element `i` into its bit: no later element writes that bit, nor clears it. -/
theorem svCrrweird_foldl_result {i : Nat} (hi : i < n) :
    (((List.range n).foldl (svCrrweirdElement c rt bb m fmsk fmap) a).gpr (svCrrweirdDest c rt i).1).getLsbD
        (svCrrweirdDest c rt i).2 = testField m (a.field (svSource c bb i)) fmsk fmap := by
  refine (svCrrweirdElement_writesAt c rt bb m fmsk fmap).foldl_written hi
    (fun w => w.getLsbD (svCrrweirdDest c rt i).2 = testField m (a.field (svSource c bb i)) fmsk fmap)
    (fun b hb => ?_) fun b k hik hk hreg hb hold => ?_
  · rw [svCrrweirdElement_getLsbD _ _ _ _ _ _ (hb.length ▸ hdest i hi) (hpos i hi), if_pos rfl, hb.field]
  · have hbit : (svCrrweirdDest c rt i).2 ≠ (svCrrweirdDest c rt k).2 := fun h =>
      absurd (svCrrweirdDest_injective c rt (Prod.ext hreg.symm h)) hik.ne
    rw [← hreg, svCrrweirdElement_getLsbD _ _ _ _ _ _ (hb.length ▸ hdest k hk) (hpos k hk), if_neg hbit, hreg, hold,
      svCrrweirdDest_keeps_pos, Bool.true_and]

/-- With a scalar RT element `i` writes bit `i` alone, so no bit from the element count on. -/
theorem svCrrweird_foldl_scalar_kept (hv : c.rtIsVec = false) {j : Nat} (hj : n ≤ j) :
    (((List.range n).foldl (svCrrweirdElement c rt bb m fmsk fmap) a).gpr rt).getLsbD j = (a.gpr rt).getLsbD j := by
  refine (svCrrweirdElement_writesAt c rt bb m fmsk fmap).foldl_kept
    (fun w => w.getLsbD j = (a.gpr rt).getLsbD j) rfl fun b k hk hreg hb hold => ?_
  have hbit : j ≠ (svCrrweirdDest c rt k).2 := by
    rw [svCrrweirdDest_scalar hv]
    exact (hk.trans_le hj).ne'
  have helem := svCrrweirdElement_getLsbD c rt bb m fmsk fmap (hb.length ▸ hdest k hk) (hpos k hk) j
  rw [hreg, if_neg hbit, hv, Bool.not_false, Bool.true_or, Bool.true_and] at helem
  exact helem.trans hold

/-- With a vector RT each element clears what lies above its packing group, so later elements keep it cleared. -/
theorem svCrrweird_foldl_vector_cleared (hv : c.rtIsVec = true) {i j : Nat} (hi : i < n)
    (hj : svPackCount c.bbElwidth ≤ j) :
    (((List.range n).foldl (svCrrweirdElement c rt bb m fmsk fmap) a).gpr (svCrrweirdDest c rt i).1).getLsbD j =
      false := by
  have hcleared : ∀ b k, k < n → a.SameShape b →
      ((svCrrweirdElement c rt bb m fmsk fmap b k).gpr (svCrrweirdDest c rt k).1).getLsbD j = false := by
    intro b k hk hb
    have hbit : j ≠ (svCrrweirdDest c rt k).2 := by
      rw [svCrrweirdDest_vector hv]
      exact ((Nat.mod_lt k (svPackCount_pos _)).trans_le hj).ne'
    rw [svCrrweirdElement_getLsbD _ _ _ _ _ _ (hb.length ▸ hdest k hk) (hpos k hk), if_neg hbit, hv, Bool.not_true,
      Bool.false_or, decide_eq_false (Nat.not_lt.mpr hj), Bool.false_and]
  exact (svCrrweirdElement_writesAt c rt bb m fmsk fmap).foldl_written hi (fun w => w.getLsbD j = false)
    (fun b hb => hcleared b i hi hb) fun b k _ hk hreg hb _ => hreg ▸ hcleared b k hk hb

end
end

/-! The bits of the last register that no result reaches (R114 (b)). -/

@[simp] theorem svOpenBits_crf (c : SvContext) (rt : Nat) (b : SvArrays) : (svOpenBits c rt b).crf = b.crf := by
  simp only [svOpenBits]
  split <;> rfl

theorem svOpenBits_scalar {c : SvContext} (hv : c.rtIsVec = false) (rt : Nat) (b : SvArrays) :
    svOpenBits c rt b = b := by
  simp [svOpenBits, hv]

/-- Positions `r` to `k - 1` from the free value `d`, those below from the register, those above 0. -/
theorem openBits_getLsbD {r k : Nat} (hrk : r ≤ k) (v d : Word) (j : Nat) :
    (lowBits r v ||| (lowBits k d &&& ~~~(lowBits r d))).getLsbD j =
      if r ≤ j then decide (j < k) && d.getLsbD j else v.getLsbD j := by
  simp only [BitVec.getLsbD_or, BitVec.getLsbD_and, BitVec.getLsbD_not, lowBits_getLsbD]
  by_cases hj : r ≤ j
  · rw [if_pos hj, decide_eq_false (Nat.not_lt.mpr hj)]
    by_cases h64 : j < 64
    · simp [h64]
    · simp [BitVec.getLsbD_of_ge d j (Nat.le_of_not_lt h64)]
  · rw [if_neg hj, decide_eq_true (Nat.lt_of_not_le hj), decide_eq_true (by omega : j < k)]
    cases d.getLsbD j <;> simp

/-- Only the positions from VL mod k of the last register take the free value, and only inside the packing group. -/
theorem svOpenBits_getLsbD {c : SvContext} {rt : Nat} {b : SvArrays} (hv : c.rtIsVec = true)
    (hlast : c.vl % svPackCount c.bbElwidth ≠ 0 → rt + c.vl / svPackCount c.bbElwidth < b.x.length) (q j : Nat) :
    ((svOpenBits c rt b).gpr q).getLsbD j =
      if c.vl % svPackCount c.bbElwidth ≠ 0 ∧ q = rt + c.vl / svPackCount c.bbElwidth ∧
          c.vl % svPackCount c.bbElwidth ≤ j then decide (j < svPackCount c.bbElwidth) && c.draw.getLsbD j
      else (b.gpr q).getLsbD j := by
  by_cases hr : c.vl % svPackCount c.bbElwidth = 0
  · simp [svOpenBits, hr]
  by_cases hq : q = rt + c.vl / svPackCount c.bbElwidth
  · subst hq
    have hopen : (c.rtIsVec && c.vl % svPackCount c.bbElwidth != 0) = true := by simp [hv, hr]
    rw [svOpenBits, if_pos hopen, SvArrays.setGpr_gpr_same _ _ (hlast hr),
      openBits_getLsbD (Nat.mod_lt _ (svPackCount_pos _)).le]
    simp [hr]
  · rw [if_neg fun h => hq h.2.1, svOpenBits]
    split
    · rw [SvArrays.setGpr_gpr_other _ _ hq]
    · rfl

section
variable {c : SvContext} {rt : Nat} {b : SvArrays} (hv : c.rtIsVec = true)
  (hdest : ∀ i, i < c.vl → (svCrrweirdDest c rt i).1 < b.x.length)
include hv

/-- A register with open bits is one that receives a result. -/
theorem lastRegister_receives (hr : c.vl % svPackCount c.bbElwidth ≠ 0) :
    ∃ i, i < c.vl ∧ (svCrrweirdDest c rt i).1 = rt + c.vl / svPackCount c.bbElwidth := by
  have hvl := Nat.div_add_mod' c.vl (svPackCount c.bbElwidth)
  refine ⟨c.vl / svPackCount c.bbElwidth * svPackCount c.bbElwidth, by omega, ?_⟩
  rw [svCrrweirdDest_vector hv, Nat.mul_div_cancel _ (svPackCount_pos _)]

include hdest

theorem lastRegister_inRange (hr : c.vl % svPackCount c.bbElwidth ≠ 0) :
    rt + c.vl / svPackCount c.bbElwidth < b.x.length := by
  obtain ⟨i, hi, hlast⟩ := lastRegister_receives (rt := rt) hv hr
  exact hlast ▸ hdest i hi

theorem svOpenBits_result {i : Nat} (hi : i < c.vl) :
    ((svOpenBits c rt b).gpr (svCrrweirdDest c rt i).1).getLsbD (svCrrweirdDest c rt i).2 =
      (b.gpr (svCrrweirdDest c rt i).1).getLsbD (svCrrweirdDest c rt i).2 := by
  rw [svOpenBits_getLsbD hv (lastRegister_inRange hv hdest), if_neg]
  rintro ⟨-, hreg, hpos⟩
  rw [svCrrweirdDest_vector hv] at hreg hpos
  have hquot : i / svPackCount c.bbElwidth = c.vl / svPackCount c.bbElwidth := Nat.add_left_cancel hreg
  have hi' := Nat.div_add_mod i (svPackCount c.bbElwidth)
  have hvl := Nat.div_add_mod c.vl (svPackCount c.bbElwidth)
  rw [hquot] at hi'
  dsimp only at hpos
  omega

theorem svOpenBits_above {q j : Nat} (hj : svPackCount c.bbElwidth ≤ j) (hold : (b.gpr q).getLsbD j = false) :
    ((svOpenBits c rt b).gpr q).getLsbD j = false := by
  rw [svOpenBits_getLsbD hv (lastRegister_inRange hv hdest), hold, decide_eq_false (Nat.not_lt.mpr hj), Bool.false_and,
    ite_self]

theorem svOpenBits_gpr_other {q : Nat} (hq : ∀ i, i < c.vl → q ≠ (svCrrweirdDest c rt i).1) :
    (svOpenBits c rt b).gpr q = b.gpr q := by
  refine BitVec.eq_of_getLsbD_eq fun j _ => ?_
  rw [svOpenBits_getLsbD hv (lastRegister_inRange hv hdest), if_neg]
  rintro ⟨hr, rfl, -⟩
  obtain ⟨i, hi, hlast⟩ := lastRegister_receives (rt := rt) hv hr
  exact hq i hi hlast.symm

end

/-- Settles O49: every element puts its answer into its own bit, and nothing else of the arrays is written. -/
theorem svCrrweirdScalarInsertsBits : Obligations.SvCrrweirdScalarInsertsBits := by
  intro rt bb n m fmsk fmap c a hw hv hn hlimit hrt hsrc
  have hdest : ∀ i, i < n → (svCrrweirdDest c rt i).1 < a.x.length := fun i hi => by
    rw [svCrrweirdDest_scalar hv]
    exact hrt (Nat.zero_lt_of_lt hi)
  have hpos : ∀ i, i < n → (svCrrweirdDest c rt i).2 < 64 := fun i hi => by
    rw [svCrrweirdDest_scalar hv]
    exact hi.trans_le hlimit
  have hwrites := svCrrweirdElement_writesAt c rt bb m fmsk fmap
  refine ⟨_, svCrrweird_next c rt bb m fmsk fmap hw (scalar_not_too_long (hn ▸ hlimit)) (hn ▸ svElements_scalar hv) hsrc
    hdest, ?_⟩
  rw [svOpenBits_scalar hv]
  refine ⟨(hwrites.foldl_sameShape a n).crf, fun q hq => hwrites.foldl_gpr_other a fun i _ => ?_, fun i hi => ?_,
    fun j hj => svCrrweird_foldl_scalar_kept c rt bb m fmsk fmap hdest hpos hv hj⟩
  · rw [svCrrweirdDest_scalar hv]
    exact hq
  · have hresult := svCrrweird_foldl_result c rt bb m fmsk fmap hdest hpos hi
    rw [svCrrweirdDest_scalar hv] at hresult
    rw [hresult, testField_iff]

/-- Settles O50: every element puts its answer into its place of its packing group, and the open bits are none of these
places, nor above a group, nor in a register that receives no result. -/
theorem svCrrweirdVectorPacksBits : Obligations.SvCrrweirdVectorPacksBits := by
  intro rt bb m fmsk fmap c a hw hv hsrc hreg
  have hvec := svCrrweirdDest_vector hv rt
  have hdest : ∀ i, i < c.vl → (svCrrweirdDest c rt i).1 < a.x.length := fun i hi => hvec i ▸ hreg i hi
  have hpos : ∀ i, i < c.vl → (svCrrweirdDest c rt i).2 < 64 := fun i _ =>
    (svCrrweirdDest_vector_pos_lt hv rt i).trans (by decide)
  have hwrites := svCrrweirdElement_writesAt c rt bb m fmsk fmap
  have hshape := hwrites.foldl_sameShape a c.vl
  have hdest' := fun i hi => (hdest i hi).trans_eq hshape.length.symm
  refine ⟨_, svCrrweird_next c rt bb m fmsk fmap hw (by simp [hv])
    (svElements_vector hv) hsrc hdest, (svOpenBits_crf ..).trans hshape.crf, fun i hi => ?_, fun i j hi hj => ?_,
    fun q hq => ?_⟩
  · have hresult := (svOpenBits_result hv hdest' hi).trans (svCrrweird_foldl_result c rt bb m fmsk fmap hdest hpos hi)
    rw [hvec] at hresult
    exact hresult ▸ testField_iff ..
  · have hcleared := svCrrweird_foldl_vector_cleared c rt bb m fmsk fmap hdest hpos hv hi hj
    rw [hvec] at hcleared
    exact svOpenBits_above hv hdest' hj hcleared
  · have hq' : ∀ i, i < c.vl → q ≠ (svCrrweirdDest c rt i).1 := fun i hi => hvec i ▸ hq i hi
    exact (svOpenBits_gpr_other hv hdest' hq').trans (hwrites.foldl_gpr_other a hq')

/-- Settles O53: element 0 inserts the test of the same field that crrweird writes to the whole register. -/
theorem svCrrweirdElementZeroIsCrrweird : Obligations.SvCrrweirdElementZeroIsCrrweird := by
  intro rt bfa m fmsk fmap c s fields regs h hp hw hv hm hvl
  have hn : 1 = if c.mapreduce then c.vl else min c.vl 1 := by
    rw [hm, if_neg Bool.false_ne_true, Nat.min_eq_right hvl]
  have hsource : svSource c bfa.val 0 = bfa.val := by
    rw [svSource, Nat.add_zero, ite_self]
  have hsrc : ∀ i, i < 1 → svSource c bfa.val i < (s.svArrays fields regs h).crf.length := fun i hi => by
    rw [Nat.lt_one_iff.mp hi, hsource]
    exact bfa.isLt.trans_le ((by decide : 8 ≤ 10).trans (s.svArrays fields regs h).crf_length)
  obtain ⟨b, hloop, -, -, hresult, hkept⟩ := svCrrweirdScalarInsertsBits rt.val bfa.val 1 m fmsk fmap c _ hw hv hn
    (by decide) (fun _ => rt.isLt.trans_le (s.svArrays fields regs h).x_length) hsrc
  obtain ⟨t, hexec, hrt, -⟩ := complete_setGpr hp rt (crrweirdValue s bfa m fmsk fmap)
  refine ⟨b, t, hloop, hexec, Bool.eq_iff_iff.mpr ?_, fun j hj => ?_⟩
  · rw [hresult 0 Nat.zero_lt_one, hsource, svArrays_field, hrt, crrweirdValue, wordOfBit_getLsbD, ← testField_iff]
    simp
  · rw [hkept j hj, svArrays_gpr]

/-! The loop of sv.mfcrrweird (R115, R116, R117). -/

section
variable (c : SvContext) (rt bb : Nat) (fmsk fmap : Nibble)

theorem svMfcrrweird_next {a : SvArrays} {n : Nat} (hw : c.rtElwidth = 0)
    (hlong : ¬ (c.rtIsVec = false ∧ c.mapreduce = true ∧ 16 < c.vl)) (he : svElements c = List.range n)
    (hsrc : ∀ i, i < n → svSource c bb i < a.crf.length)
    (hdest : ∀ i, i < n → (svMfcrrweirdDest c rt i).1 < a.x.length) :
    svExec (.mfcrrweird rt bb fmsk fmap) c a =
      .next ((List.range n).foldl (svMfcrrweirdElement c rt bb fmsk fmap)
        ((List.range n).foldl (svMfcrrweirdClear c rt) a)) := by
  have hrange : svInRange c a bb (fun i => (svMfcrrweirdDest c rt i).1) = true := by
    rw [svInRange_iff, he]
    exact fun i hi => ⟨hsrc i (List.mem_range.mp hi), hdest i (List.mem_range.mp hi)⟩
  rw [svExec, svMfcrrweird, if_neg (not_not_intro hw), if_neg hlong, hrange, if_neg (by decide), he]

theorem svMfcrrweirdElement_writesAt :
    WritesAt (svMfcrrweirdElement c rt bb fmsk fmap) fun i => (svMfcrrweirdDest c rt i).1 :=
  fun _ _ => ⟨_, rfl⟩

theorem svMfcrrweirdElement_getLsbD {b : SvArrays} {i : Nat} (hdest : (svMfcrrweirdDest c rt i).1 < b.x.length)
    (hpos : (svMfcrrweirdDest c rt i).2 < 16) (j : Nat) :
    ((svMfcrrweirdElement c rt bb fmsk fmap b i).gpr (svMfcrrweirdDest c rt i).1).getLsbD j =
      if j / 4 = (svMfcrrweirdDest c rt i).2 then matchBit (b.field (svSource c bb i)) fmsk fmap (j % 4)
      else (b.gpr (svMfcrrweirdDest c rt i).1).getLsbD j := by
  rw [svMfcrrweirdElement, SvArrays.setGpr_gpr_same _ _ hdest, putNibble_getLsbD _ _ hpos, match4_getLsbD]

/-- A scalar RT is not cleared, and its other bits stay (R114 (a), R116). -/
theorem svMfcrrweirdClear_scalar {a : SvArrays} (hv : c.rtIsVec = false) (i : Nat) :
    svMfcrrweirdClear c rt a i = a := by
  rw [svMfcrrweirdClear, hv, if_neg Bool.false_ne_true]

theorem svMfcrrweirdClear_vector (hv : c.rtIsVec = true) (a : SvArrays) (i : Nat) :
    svMfcrrweirdClear c rt a i = a.setGpr (svMfcrrweirdDest c rt i).1 0 := by
  rw [svMfcrrweirdClear, if_pos hv]

theorem svMfcrrweirdClear_writesAt (hv : c.rtIsVec = true) :
    WritesAt (svMfcrrweirdClear c rt) fun i => (svMfcrrweirdDest c rt i).1 :=
  fun b i => ⟨0, svMfcrrweirdClear_vector c rt hv b i⟩

section
variable {a : SvArrays} {n : Nat} (hdest : ∀ i, i < n → (svMfcrrweirdDest c rt i).1 < a.x.length)
include hdest

theorem svMfcrrweirdClear_foldl_zero (hv : c.rtIsVec = true) {i : Nat} (hi : i < n) :
    ((List.range n).foldl (svMfcrrweirdClear c rt) a).gpr (svMfcrrweirdDest c rt i).1 = 0 := by
  have hzero : ∀ b k, k < n → a.SameShape b →
      (svMfcrrweirdClear c rt b k).gpr (svMfcrrweirdDest c rt k).1 = 0 := fun b k hk hb => by
    rw [svMfcrrweirdClear_vector c rt hv, SvArrays.setGpr_gpr_same _ _ (hb.length ▸ hdest k hk)]
  exact (svMfcrrweirdClear_writesAt c rt hv).foldl_written hi (· = 0) (fun b hb => hzero b i hi hb)
    fun b k _ hk hreg hb _ => hreg ▸ hzero b k hk hb

variable (hpos : ∀ i, i < n → (svMfcrrweirdDest c rt i).2 < 16)
include hpos

/-- The loop puts the match bits of element `i` into its nibble: no later element writes that nibble. -/
theorem svMfcrrweird_foldl_result (hw : c.rtElwidth = 0) {i j : Nat} (hi : i < n)
    (hj : j / 4 = (svMfcrrweirdDest c rt i).2) :
    (((List.range n).foldl (svMfcrrweirdElement c rt bb fmsk fmap) a).gpr (svMfcrrweirdDest c rt i).1).getLsbD j =
      matchBit (a.field (svSource c bb i)) fmsk fmap (j % 4) := by
  refine (svMfcrrweirdElement_writesAt c rt bb fmsk fmap).foldl_written hi
    (fun w => w.getLsbD j = matchBit (a.field (svSource c bb i)) fmsk fmap (j % 4))
    (fun b hb => ?_) fun b k hik hk hreg hb hold => ?_
  · rw [svMfcrrweirdElement_getLsbD _ _ _ _ _ (hb.length ▸ hdest i hi) (hpos i hi), if_pos hj, hb.field]
  · have hnibble : j / 4 ≠ (svMfcrrweirdDest c rt k).2 := fun h => by
      have hsame : svMfcrrweirdDest c rt i = svMfcrrweirdDest c rt k := Prod.ext hreg.symm (hj.symm.trans h)
      rw [svMfcrrweirdDest_eq hw, svMfcrrweirdDest_eq hw] at hsame
      exact hik.ne (svCrrweirdDest_injective c rt hsame)
    rw [← hreg, svMfcrrweirdElement_getLsbD _ _ _ _ _ (hb.length ▸ hdest k hk) (hpos k hk), if_neg hnibble, hreg, hold]

/-- The loop keeps every bit that is in the nibble of no element. -/
theorem svMfcrrweird_foldl_kept {q j : Nat} (hj : ∀ i, i < n → svMfcrrweirdDest c rt i ≠ (q, j / 4)) :
    (((List.range n).foldl (svMfcrrweirdElement c rt bb fmsk fmap) a).gpr q).getLsbD j = (a.gpr q).getLsbD j := by
  refine (svMfcrrweirdElement_writesAt c rt bb fmsk fmap).foldl_kept
    (fun w => w.getLsbD j = (a.gpr q).getLsbD j) rfl fun b k hk hreg hb hold => ?_
  have hnibble : j / 4 ≠ (svMfcrrweirdDest c rt k).2 := fun h => hj k hk (Prod.ext hreg h.symm)
  rw [← hreg, svMfcrrweirdElement_getLsbD _ _ _ _ _ (hb.length ▸ hdest k hk) (hpos k hk), if_neg hnibble, hreg, hold]

end
end

/-- Settles O51: every element puts its match bits into its own nibble, and nothing else of the arrays is written. -/
theorem svMfcrrweirdScalarInsertsNibbles : Obligations.SvMfcrrweirdScalarInsertsNibbles := by
  intro rt bb n fmsk fmap c a hw hv hn hlimit hrt hsrc
  have hscalar : ∀ i, svMfcrrweirdDest c rt i = (rt, i) := fun i =>
    (svMfcrrweirdDest_eq hw rt i).trans (svCrrweirdDest_scalar hv rt i)
  have hdest : ∀ i, i < n → (svMfcrrweirdDest c rt i).1 < a.x.length := fun i hi =>
    hscalar i ▸ hrt (Nat.zero_lt_of_lt hi)
  have hpos : ∀ i, i < n → (svMfcrrweirdDest c rt i).2 < 16 := fun i hi => hscalar i ▸ hi.trans_le hlimit
  have hwrites := svMfcrrweirdElement_writesAt c rt bb fmsk fmap
  refine ⟨_, svMfcrrweird_next c rt bb fmsk fmap hw (scalar_not_too_long (hn ▸ hlimit)) (hn ▸ svElements_scalar hv) hsrc
    hdest, ?_⟩
  have hclear : (List.range n).foldl (svMfcrrweirdClear c rt) a = a :=
    foldl_range_induction (fun _ b => b = a) rfl fun k _ _ hb => (svMfcrrweirdClear_scalar c rt hv k).trans hb
  rw [hclear]
  refine ⟨(hwrites.foldl_sameShape a n).crf, fun q hq => hwrites.foldl_gpr_other a fun i _ => hscalar i ▸ hq,
    fun j => ?_⟩
  split_ifs with hj
  · have hresult := svMfcrrweird_foldl_result c rt bb fmsk fmap hdest hpos hw hj (j := j) (by rw [hscalar])
    rwa [hscalar] at hresult
  · refine svMfcrrweird_foldl_kept c rt bb fmsk fmap hdest hpos fun i hi h => hj ?_
    rw [hscalar] at h
    exact (Prod.mk.inj h).2 ▸ hi

/-- For a vector RT, the one element at nibble `p` of register RT + `q` is `q * k + p`. -/
theorem svMfcrrweirdDest_vector_eq_iff {c : SvContext} (hw : c.rtElwidth = 0) (hv : c.rtIsVec = true)
    {rt i q p : Nat} : svMfcrrweirdDest c rt i = (rt + q, p) ↔
      p < svPackCount c.bbElwidth ∧ q * svPackCount c.bbElwidth + p = i := by
  rw [svMfcrrweirdDest_eq hw, svCrrweirdDest_vector hv, Prod.mk.injEq, Nat.add_left_cancel_iff,
    Nat.div_mod_unique (svPackCount_pos _), and_comm, Nat.mul_comm, Nat.add_comm p]

/-- Bit by bit, what the loop leaves in a receiving register of a vector RT: nibbles of its elements, 0 elsewhere. -/
theorem svMfcrrweird_foldl_vector_getLsbD {c : SvContext} (hw : c.rtElwidth = 0) (hv : c.rtIsVec = true)
    {rt : Nat} {a : SvArrays} (hdest : ∀ i, i < c.vl → (svMfcrrweirdDest c rt i).1 < a.x.length) (bb : Nat)
    (fmsk fmap : Nibble) {q : Nat} (hq : q * svPackCount c.bbElwidth < c.vl) (j : Nat) :
    (((List.range c.vl).foldl (svMfcrrweirdElement c rt bb fmsk fmap)
        ((List.range c.vl).foldl (svMfcrrweirdClear c rt) a)).gpr (rt + q)).getLsbD j =
      (decide (j / 4 < svPackCount c.bbElwidth ∧ q * svPackCount c.bbElwidth + j / 4 < c.vl) &&
        matchBit (a.field (svSource c bb (q * svPackCount c.bbElwidth + j / 4))) fmsk fmap (j % 4)) := by
  have hplace := fun i p => svMfcrrweirdDest_vector_eq_iff hw hv (rt := rt) (i := i) (q := q) (p := p)
  have hpos : ∀ i, i < c.vl → (svMfcrrweirdDest c rt i).2 < 16 := fun i _ =>
    svMfcrrweirdDest_eq hw rt i ▸ (svCrrweirdDest_vector_pos_lt hv rt i).trans (by decide)
  have hcleared := (svMfcrrweirdClear_writesAt c rt hv).foldl_sameShape a c.vl
  have hdest' := fun i hi => (hdest i hi).trans_eq hcleared.length.symm
  by_cases hj : j / 4 < svPackCount c.bbElwidth ∧ q * svPackCount c.bbElwidth + j / 4 < c.vl
  · have helem := (hplace _ _).mpr ⟨hj.1, rfl⟩
    have hresult := svMfcrrweird_foldl_result c rt bb fmsk fmap hdest' hpos hw hj.2 (j := j) (by rw [helem])
    rw [helem, hcleared.field] at hresult
    rw [hresult, decide_eq_true hj, Bool.true_and]
  · have hnone : ∀ i, i < c.vl → svMfcrrweirdDest c rt i ≠ (rt + q, j / 4) := fun i hi h => by
      obtain ⟨hp, rfl⟩ := (hplace _ _).mp h
      exact hj ⟨hp, hi⟩
    have hzero := svMfcrrweirdClear_foldl_zero c rt hdest hv hq
    rw [(hplace _ 0).mpr ⟨svPackCount_pos _, Nat.add_zero _⟩] at hzero
    rw [svMfcrrweird_foldl_kept c rt bb fmsk fmap hdest' hpos hnone, hzero, decide_eq_false hj, Bool.false_and]
    exact BitVec.getLsbD_zero

/-- Settles O52: a receiving register is cleared, then every element puts its match bits into its own nibble. -/
theorem svMfcrrweirdVectorPacksNibbles : Obligations.SvMfcrrweirdVectorPacksNibbles := by
  intro rt bb fmsk fmap c a hw hv hsrc hreg
  have hvec : ∀ i, svMfcrrweirdDest c rt i = (rt + i / svPackCount c.bbElwidth, i % svPackCount c.bbElwidth) :=
    fun i => (svMfcrrweirdDest_eq hw rt i).trans (svCrrweirdDest_vector hv rt i)
  have hdest : ∀ i, i < c.vl → (svMfcrrweirdDest c rt i).1 < a.x.length := fun i hi => hvec i ▸ hreg i hi
  have hclears := svMfcrrweirdClear_writesAt c rt hv
  have hwrites := svMfcrrweirdElement_writesAt c rt bb fmsk fmap
  refine ⟨_, svMfcrrweird_next c rt bb fmsk fmap hw (by simp [hv]) (svElements_vector hv) hsrc hdest,
    (hwrites.foldl_sameShape _ c.vl).crf.trans (hclears.foldl_sameShape a c.vl).crf,
    fun q j hq => svMfcrrweird_foldl_vector_getLsbD hw hv hdest bb fmsk fmap hq j, fun q hq => ?_⟩
  have hq' : ∀ i, i < c.vl → q ≠ (svMfcrrweirdDest c rt i).1 := fun i hi => hvec i ▸ hq i hi
  exact (hwrites.foldl_gpr_other _ hq').trans (hclears.foldl_gpr_other a hq')

/-! The packing of sv.mfcrrweird beside the widths of a destination element (R115, R117). -/

theorem svNibbleCount_16 : svNibbleCount 2 0 = 1 ∧ svNibbleCount 2 1 = 2 ∧ svNibbleCount 2 2 = 4 ∧
    svNibbleCount 2 3 = 4 := by decide

/-- The results that share an element fit it, and there is at least one. -/
theorem svNibbleCount_fits (rtElwidth bbElwidth : BitVec 2) : 0 < svNibbleCount rtElwidth bbElwidth ∧
    4 * svNibbleCount rtElwidth bbElwidth ≤ svDestWidth rtElwidth := by
  revert rtElwidth bbElwidth
  decide

/-- Settles O56: the table is the four nibble counts of a 16-bit element, and a nibble below the count fits. -/
theorem svPackingFitsTheElement : Obligations.SvPackingFitsTheElement := by
  refine ⟨fun i => ?_, fun rtElwidth bbElwidth i => ?_⟩
  · obtain ⟨h0, h1, h2, h3⟩ := svNibbleCount_16
    simp only [svPackIndex, h0, h1, h2, h3, Nat.div_one, Nat.mod_one, and_self]
  · obtain ⟨hpos, hfits⟩ := svNibbleCount_fits rtElwidth bbElwidth
    have hlt := Nat.mod_lt i hpos
    rw [svPackIndex]
    omega

/-! What the page leaves undefined (R114 (c), R116, R118, R120). -/

/-- Settles O55: each loop checks RT.elwidth, then the length; the other forms have no loop. -/
theorem svUndefinedCasesAreRefused : Obligations.SvUndefinedCasesAreRefused := by
  refine ⟨fun rt bb m fmsk fmap c a hw => ?_, fun rt bb fmsk fmap c a hw => ?_,
    fun rt bb m fmsk fmap c a hw hv hm hlong => ?_, fun rt bb fmsk fmap c a hw hv hm hlong => ?_,
    fun c a => ⟨rfl, rfl, rfl, rfl⟩⟩
  · rw [svExec, svCrrweird, if_pos hw]
  · rw [svExec, svMfcrrweird, if_pos hw]
  · rw [svExec, svCrrweird, if_neg (not_not_intro hw), if_pos ⟨hv, hm, hlong⟩]
  · rw [svExec, svMfcrrweird, if_neg (not_not_intro hw), if_pos ⟨hv, hm, hlong⟩]

end Sys2Proof.Machine

/-! Exceptions (60_exceptions.md): no instruction raises anything (R131), and the one exception, IllegalInstruction, is
that of a word which matches no instruction (R130). -/

namespace Sys2Proof.Machine

/-! Instructions raise nothing (R131; 10_state.md R26). -/

theorem exec_next_of_ne_topPc (i : Instr) {s : State} (hp : s.pc ≠ topPc) :
    ∃ t, exec i s = .next t ∧ t.pc = s.pc + 4 := by
  obtain ⟨u, hexec, hpc, _⟩ := exec_complete i s
  exact ⟨_, hexec.trans (complete_next (hpc ▸ hp)), congrArg (· + 4) hpc⟩

theorem exec_refused_of_eq_topPc (i : Instr) {s : State} (hp : s.pc = topPc) : exec i s = .refused .pcWrap := by
  obtain ⟨u, hexec, hpc, _⟩ := exec_complete i s
  exact hexec.trans (complete_refused (hpc.trans hp))

/-- Settles O33: every meaning ends in `complete`, which answers pc + 4 but at the top, where it refuses. -/
theorem noInstructionRaises : Obligations.NoInstructionRaises :=
  ⟨fun i _ hp => exec_next_of_ne_topPc i hp, fun i _ hp => exec_refused_of_eq_topPc i (BitVec.eq_of_toNat_eq hp)⟩

theorem exec_ne_fault (i : Instr) (s : State) (f : Fault) : exec i s ≠ .fault f := by
  by_cases hp : s.pc = topPc
  · simp [exec_refused_of_eq_topPc i hp]
  · obtain ⟨t, hexec, _⟩ := exec_next_of_ne_topPc i hp
    simp [hexec]

/-! IllegalInstruction (R130; 30_encoding.md R61, R67). -/

theorem stepWord_eq_illegalInstruction_iff {v w : InstrWord} {s : State} :
    stepWord v s = .fault (.illegalInstruction w) ↔ v = w ∧ decode s.enc v = .illegal := by
  unfold stepWord
  cases decode s.enc v with
  | instr i => simp [exec_ne_fault]
  | reserved op => simp
  | illegal => simp [raiseIllegal]
  | ambiguous => simp

/-- At an aligned pc the step faults with IllegalInstruction when the word there is decoded as illegal: an instruction
raises nothing, and where there is no word the fault is another. -/
theorem step_eq_illegalInstruction_iff {s : State} (ha : s.pc.toNat % 4 = 0) {w : InstrWord} :
    step s = .fault (.illegalInstruction w) ↔ s.fetch = some w ∧ decode s.enc w = .illegal := by
  cases hfetch : s.fetch with
  | none =>
    rw [step_aligned_none ha hfetch, stepNoWord]
    split <;> simp
  | some v =>
    rw [step_aligned_word ha hfetch, stepWord_eq_illegalInstruction_iff, Option.some.injEq]
    exact and_congr_right fun h => by rw [h]

/-- Settles O38: O6 says when a word is decoded as illegal, and the invariant keeps the words of BASE_ISA unmatched. -/
theorem illegalInstructionExactlyAtUnmatchedWords : Obligations.IllegalInstructionExactlyAtUnmatchedWords := by
  have faults_iff (s : State) (w : InstrWord) (ha : s.pc.toNat % 4 = 0) :
      step s = .fault (.illegalInstruction w) ↔ s.fetch = some w ∧ ∀ op, ¬ WordMatches s.enc op w := by
    rw [step_eq_illegalInstruction_iff ha, illegalExactlyWhenNoInstructionMatches s.enc w]
  exact ⟨faults_iff, fun s w hinv hfetch hbase =>
    (faults_iff s w hinv.aligned).mpr ⟨hfetch, hinv.base w hbase⟩⟩

end Sys2Proof.Machine

/-! Reset, runs and hazards (70_reset_and_hazards.md): the launch (R151), the constant loads of an empty mask (R152),
the end of a run and its length (R153), and the table of what an instruction reads (R155). -/

namespace Sys2Proof.Machine

/-! The launch (R151). -/

/-- Settles O45: the fields are those a launch gives, and a loaded program holds its own words and no other, so the
bytes of each lie in the byte order. -/
theorem launchHoldsTheProgram : Obligations.LaunchHoldsTheProgram := by
  intro p s h
  obtain ⟨_, _, hprogram, _, rfl⟩ := launch_next h
  obtain ⟨haligned, hnodup⟩ := (isProgram_iff p.program).mp hprogram
  have hwords (a : Nat) (w : InstrWord) (ha : a % 4 = 0) :=
    memWord_loadProgram p.ifetchEndian haligned hnodup w ha
  exact ⟨rfl, rfl, rfl, rfl, rfl, rfl, rfl, hwords, fun c hc =>
    (wordsLieInTheirByteOrder _ _ _ _).mp ((hwords c.1.toNat c.2 (haligned c hc)).mpr ⟨c.1, hc, rfl⟩)⟩

/-- A launch that meets the four checks answers a state. -/
theorem exists_launch_next {p : LaunchParams} (haligned : p.entry.toNat % 4 = 0)
    (henc : p.enc.Admissible ∧ p.enc.disjointFrom p.baseIsa = true) (hprogram : isProgram p.program = true)
    (hentry : p.entry ∈ p.program.map Prod.fst) : ∃ s, launch p = .next s := by
  rw [launch, if_neg (not_not.mpr haligned), if_neg (not_not.mpr henc), if_neg (Bool.not_eq_false _ ▸ hprogram),
    if_neg (not_not.mpr hentry)]
  exact ⟨_, rfl⟩

/-- The checks of a launch are the invariant of the state it answers. -/
theorem launch_next_inv {p : LaunchParams} {s : State} (h : launch p = .next s) : s.Inv := by
  obtain ⟨haligned, ⟨hadmissible, hdisjoint⟩, _, _, rfl⟩ := launch_next h
  exact
    { aligned := haligned
      memory := loadProgram_wf p.ifetchEndian p.program
      enc := hadmissible
      base := (baseDisjoint_iff p.enc p.baseIsa).mpr hdisjoint }

theorem launch_refused_of_misaligned {p : LaunchParams} (h : p.entry.toNat % 4 ≠ 0) :
    launch p = .refused .launchMisalignedEntry := if_pos h

/-- Settles O46: an address of the program is aligned, so all four checks are met; they are also the invariant; and the
check of ENTRY comes first. -/
theorem launchStartsOrRefuses : Obligations.LaunchStartsOrRefuses := by
  refine fun p => ⟨?starts, fun _ => launch_next_inv, launch_refused_of_misaligned⟩
  case starts =>
    rintro hadmissible hdisjoint haligned hnodup ⟨w, hentry⟩
    exact exists_launch_next (haligned _ hentry) ⟨hadmissible, (baseDisjoint_iff _ _).mp hdisjoint⟩
      ((isProgram_iff _).mpr ⟨haligned, hnodup⟩) (List.mem_map_of_mem hentry)

/-! The constant loads (R152). -/

theorem match4_empty (creg fmap : Nibble) : match4 creg 0 fmap = 0 := BitVec.and_zero

theorem testField_empty (m : Bool) (creg fmap : Nibble) : testField m creg 0 fmap = !m := by
  rw [testField, match4_empty]
  cases m <;> rfl

theorem exec_crrweird_empty {s : State} (hp : s.pc ≠ topPc) (rt : GprNum) (bfa : FieldNum) (m : Bool) (fmap : Nibble) :
    ∃ t, exec (.crrweird rt bfa m 0 fmap) s = .next t ∧ t.gpr rt = wordOfBit !m := by
  obtain ⟨t, hexec, hrt, _⟩ := complete_setGpr hp rt (crrweirdValue s bfa m 0 fmap)
  exact ⟨t, hexec, by rw [hrt, crrweirdValue, testField_empty]⟩

/-- Settles O28: with no bit selected the test answers the complement of M. -/
theorem emptyMaskLoadsAConstant : Obligations.EmptyMaskLoadsAConstant :=
  fun rt bfa fmap _ hp => ⟨exec_crrweird_empty hp rt bfa true fmap, exec_crrweird_empty hp rt bfa false fmap⟩

/-! The end of a run (R153). -/

theorem stepNoWord_of_programEnd {s : State} (h : programEnd s.mem = some s.pc.toNat) :
    stepNoWord s = .fault (.endOfProgram s.pc) := if_pos h

theorem stepNoWord_of_ne_programEnd {s : State} (h : programEnd s.mem ≠ some s.pc.toNat) :
    stepNoWord s = .fault (.stuck s.pc) := if_neg h

/-- Settles O40: the two cases are those of `stepNoWord`, whose test says that pc is 4 past the highest word. -/
theorem noWordEndsTheRunOrSticks : Obligations.NoWordEndsTheRunOrSticks := by
  intro s hinv hfetch
  rw [step_aligned_none hinv.aligned hfetch, ← programEnd_iff hinv.memory]
  exact ⟨stepNoWord_of_programEnd, stepNoWord_of_ne_programEnd⟩

/-- The program holds no word at its end. -/
theorem memWord_programEnd {m : List Host.Cell} (hwf : Memory.wf m) (en : Endian) {e : Nat}
    (h : programEnd m = some e) : memWord m en e = none := by
  obtain ⟨a, ha, rfl, _, hmax⟩ := (programEnd_iff hwf en e).mp h
  by_contra hword
  have := hmax (a + 4) (by omega) (Option.isSome_iff_ne_none.mpr hword)
  omega

theorem ended_of_programEnd {s : State} (hinv : s.Inv) (h : programEnd s.mem = some s.pc.toNat) : s.Ended :=
  (step_aligned_none hinv.aligned (memWord_programEnd hinv.memory s.ifetchEndian h)).trans (stepNoWord_of_programEnd h)

/-! The length of a run (R153). -/

/-- A run of n + 1 steps that answers is a step and a run of n steps. -/
theorem run_succ_eq_next {n : Nat} {s t : State} (h : Sys2Proof.core.run (n + 1) s = .next t) :
    ∃ u, step s = .next u ∧ Sys2Proof.core.run n u = .next t := by
  cases hstep : step s with
  | next u => exact ⟨u, rfl, run_succ_next hstep ▸ h⟩
  | fault r => rw [run_succ_fault hstep] at h; cases h
  | refused r => rw [run_succ_refused hstep] at h; cases h

/-- What every step keeps, every run keeps. -/
theorem run_keeps {P : State → Prop} (hstep : ∀ s t, P s → step s = .next t → P t) {n : Nat} {s t : State} (hs : P s)
    (h : Sys2Proof.core.run n s = .next t) : P t := by
  induction n generalizing s with
  | zero => cases h; exact hs
  | succ n ih =>
    obtain ⟨u, hu, hrun⟩ := run_succ_eq_next h
    exact ih (hstep s u hs hu) hrun

theorem run_keeps_mem {n : Nat} {s t : State} (h : Sys2Proof.core.run n s = .next t) : t.mem = s.mem := by
  refine run_keeps (P := fun u => u.mem = s.mem) (fun u v hu hstep => ?_) rfl h
  obtain ⟨_, hmem, _⟩ := stepKeepsProgramAndXerSo u v hstep
  exact hmem.trans hu

/-- Settles O47, by induction on the number of steps. -/
theorem runMovesPcByFourPerStep : Obligations.RunMovesPcByFourPerStep := by
  intro n s t h
  induction n generalizing s with
  | zero => cases h; rfl
  | succ n ih =>
    obtain ⟨u, hstep, hrun⟩ := run_succ_eq_next h
    have hpc := ih u hrun
    have hpc' := step_next_pc hstep
    omega

/-- Where the word at an aligned pc decodes to an instruction, and pc + 4 is an address, the step answers. -/
theorem exists_step_next {s : State} (ha : s.pc.toNat % 4 = 0) (hlt : s.pc.toNat + 4 < 2 ^ 64) (h : s.HoldsInstr 0) :
    ∃ t, step s = .next t := by
  obtain ⟨w, i, hword, hdecode⟩ := h
  have hp : s.pc ≠ topPc := fun e => by rw [e] at hlt; exact absurd hlt (by decide)
  obtain ⟨t, hexec, _⟩ := exec_next_of_ne_topPc i hp
  exact ⟨t, (stepRunsTheDecodedInstruction s w i ha hword hdecode).trans hexec⟩

/-- The words from the next pc are those from pc after the first. -/
theorem holdsInstr_of_step {s t : State} (hstep : step s = .next t) {k : Nat} (h : s.HoldsInstr (k + 1)) :
    t.HoldsInstr k := by
  obtain ⟨_, hmem, henc, _, hendian⟩ := stepKeepsProgramAndXerSo s t hstep
  have haddr : t.pc.toNat + 4 * k = s.pc.toNat + 4 * (k + 1) := by rw [step_next_pc hstep]; omega
  rw [State.HoldsInstr, hmem, henc, hendian, haddr]
  exact h

theorem exists_run_next {n : Nat} {s : State} (hinv : s.Inv) (hlt : s.pc.toNat + 4 * n < 2 ^ 64)
    (h : ∀ k, k < n → s.HoldsInstr k) : ∃ t, Sys2Proof.core.run n s = .next t := by
  induction n generalizing s with
  | zero => exact ⟨s, rfl⟩
  | succ n ih =>
    obtain ⟨u, hstep⟩ := exists_step_next hinv.aligned (by omega) (h 0 n.succ_pos)
    rw [run_succ_next hstep]
    exact ih (everyStepKeepsTheInvariant s u hinv hstep) (by rw [step_next_pc hstep]; omega)
      fun k hk => holdsInstr_of_step hstep (h (k + 1) (Nat.succ_lt_succ hk))

/-- Settles O48: the run answers, by induction on the words; how far it comes is O47, and the invariant it keeps makes
the program's end the end of the run. -/
theorem straightLineProgramTakesNSteps : Obligations.StraightLineProgramTakesNSteps := by
  intro n s hinv hlt hwords
  obtain ⟨t, hrun⟩ := exists_run_next hinv hlt hwords
  have hpc := runMovesPcByFourPerStep n s t hrun
  have hmem := run_keeps_mem hrun
  have hinv' := run_keeps everyStepKeepsTheInvariant hinv hrun
  exact ⟨t, hrun, hpc, hmem, fun hend => ended_of_programEnd hinv' (by rw [hmem, hpc, hend])⟩

/-! The table of reads and writes (R155): equal contents where the row reads make equal contents where it writes. -/

section
variable {s s' : State}

@[simp] theorem agreeOn_nil : State.AgreeOn [] s s' := fun _ h => nomatch h

@[simp] theorem agreeOn_cons {l : Loc} {ls : List Loc} :
    State.AgreeOn (l :: ls) s s' ↔ s.at l = s'.at l ∧ State.AgreeOn ls s s' := List.forall_mem_cons

@[simp] theorem agreeOn_append {ls ls' : List Loc} :
    State.AgreeOn (ls ++ ls') s s' ↔ State.AgreeOn ls s s' ∧ State.AgreeOn ls' s s' := List.forall_mem_append

theorem wordOfNibble_inj {v v' : Nibble} : wordOfNibble v = wordOfNibble v' ↔ v = v' :=
  ⟨fun h => nibble_ext fun j _ => by rw [← wordOfNibble_getLsbD v, h, wordOfNibble_getLsbD], congrArg wordOfNibble⟩

theorem wordOfBit_inj {b b' : Bool} : wordOfBit b = wordOfBit b' ↔ b = b' := by
  cases b <;> cases b' <;> decide

@[simp] theorem at_gpr_eq_iff {i : GprNum} : s.at (.gpr i) = s'.at (.gpr i) ↔ s.gpr i = s'.gpr i := Iff.rfl

@[simp] theorem at_field_eq_iff {k : FieldNum} : s.at (.field k) = s'.at (.field k) ↔ s.crf k = s'.crf k :=
  wordOfNibble_inj

@[simp] theorem at_xerSo_eq_iff : s.at .xerSo = s'.at .xerSo ↔ s.xerSo = s'.xerSo := wordOfBit_inj

theorem ra0_eq_of_agreeOn {ra : GprNum} (h : State.AgreeOn (readsOfRa0 ra) s s') : s.ra0 ra = s'.ra0 ra := by
  by_cases hra : ra = 0
  · simp [hra]
  · simpa [readsOfRa0, State.ra0, hra] using h

theorem crf_eq_of_agreeOn_readsOfTarget {m : Bool} {bf : FieldNum} (h : State.AgreeOn (readsOfTarget m bf) s s')
    (hm : m = true) : s.crf bf = s'.crf bf := by
  simpa [readsOfTarget, hm] using h

theorem setGpr_agreeOn {rt : GprNum} {v v' : Word} (hv : v = v') :
    State.AgreeOn [.gpr rt] (s.setGpr rt v) (s'.setGpr rt v') := by
  simp [hv]

theorem setGpr_record_agreeOn {rt : GprNum} {v v' : Word} (hso : s.xerSo = s'.xerSo) (hv : v = v') :
    State.AgreeOn [.gpr rt, .field 0] ((s.setGpr rt v).record v) ((s'.setGpr rt v').record v') := by
  simp [hv, hso]

theorem setCrf_agreeOn {bf : FieldNum} {v v' : Nibble} (hv : v = v') :
    State.AgreeOn [.field bf] (s.setCrf bf v) (s'.setCrf bf v') := by
  simp [hv]

theorem matchIntoField_agreeOn {bf : FieldNum} {creg creg' : Nibble} {m : Bool} (hcreg : creg = creg')
    (hbf : m = true → s.crf bf = s'.crf bf) (fmsk fmap : Nibble) :
    State.AgreeOn [.field bf] (s.matchIntoField bf creg m fmsk fmap) (s'.matchIntoField bf creg' m fmsk fmap) :=
  setCrf_agreeOn (by rw [hcreg, mergeField_congr hbf])

/-- The field of a written bit is that bit and three old ones. -/
theorem setCrBit_crf_getLsbD (s : State) (bt : CrBitNum) (v : Bool) (j : Nat) :
    ((s.setCrBit bt v).crf (fieldOfBit bt)).getLsbD j =
      if j = 3 - bt.val % 4 then v else (s.crf (fieldOfBit bt)).getLsbD j :=
  crfOf_crBitPut_getLsbD s.cr bt v j

theorem setCrBit_agreeOn {bt : CrBitNum} {v v' : Bool} (hold : s.crf (fieldOfBit bt) = s'.crf (fieldOfBit bt))
    (hv : v = v') : State.AgreeOn [.field (fieldOfBit bt)] (s.setCrBit bt v) (s'.setCrBit bt v') := by
  have hfield : (s.setCrBit bt v).crf (fieldOfBit bt) = (s'.setCrBit bt v').crf (fieldOfBit bt) :=
    nibble_ext fun j _ => by rw [setCrBit_crf_getLsbD, setCrBit_crf_getLsbD, hold, hv]
  simpa using hfield

/-- Each instruction completes states that agree on what it writes, where the old ones agree on what it reads. -/
theorem exec_complete_agreeOn (i : Instr) (h : State.AgreeOn (readsOf i) s s') :
    ∃ u u', exec i s = complete u ∧ exec i s' = complete u' ∧ State.AgreeOn (writesOf i) u u' := by
  cases i with
  | crrweird rt bfa m fmsk fmap =>
    have hbfa : s.crf bfa = s'.crf bfa := by simpa [readsOf] using h
    exact ⟨_, _, rfl, rfl, setGpr_agreeOn (crrweirdValue_congr hbfa m fmsk fmap)⟩
  | mfcrrweird rt bfa fmsk fmap =>
    have hbfa : s.crf bfa = s'.crf bfa := by simpa [readsOf] using h
    exact ⟨_, _, rfl, rfl, setGpr_agreeOn (mfcrrweirdValue_congr hbfa fmsk fmap)⟩
  | crrweirdRc rt bfa m fmsk fmap =>
    obtain ⟨hbfa, hso⟩ : s.crf bfa = s'.crf bfa ∧ s.xerSo = s'.xerSo := by simpa [readsOf] using h
    exact ⟨_, _, rfl, rfl, setGpr_record_agreeOn hso (crrweirdValue_congr hbfa m fmsk fmap)⟩
  | mfcrrweirdRc rt bfa fmsk fmap =>
    obtain ⟨hbfa, hso⟩ : s.crf bfa = s'.crf bfa ∧ s.xerSo = s'.xerSo := by simpa [readsOf] using h
    exact ⟨_, _, rfl, rfl, setGpr_record_agreeOn hso (mfcrrweirdValue_congr hbfa fmsk fmap)⟩
  | mtcrrweird bf ra m fmsk fmap | mtcrweird bf ra m fmsk fmap =>
    obtain ⟨hra, hbf⟩ := agreeOn_append.mp h
    exact ⟨_, _, rfl, rfl, matchIntoField_agreeOn (congrArg _ (ra0_eq_of_agreeOn hra))
      (crf_eq_of_agreeOn_readsOfTarget hbf) fmsk fmap⟩
  | mcrfm bf bfa m fmsk fmap =>
    obtain ⟨hbfa, hbf⟩ := agreeOn_cons.mp h
    exact ⟨_, _, rfl, rfl, setCrf_agreeOn (mcrfmValue_congr (at_field_eq_iff.mp hbfa)
      (crf_eq_of_agreeOn_readsOfTarget hbf) fmsk fmap)⟩
  | crweirder bt bfa m fmsk fmap =>
    obtain ⟨hbfa, hold⟩ : s.crf bfa = s'.crf bfa ∧ s.crf (fieldOfBit bt) = s'.crf (fieldOfBit bt) := by
      simpa [readsOf] using h
    exact ⟨_, _, rfl, rfl, setCrBit_agreeOn hold (by rw [hbfa])⟩
  | mtcri bf fmap =>
    exact ⟨_, _, rfl, rfl, matchIntoField_agreeOn rfl (fun hm => absurd hm Bool.false_ne_true) _ _⟩
  | mtcrset bf fmsk | mtcrclr bf fmsk =>
    have hbf : s.crf bf = s'.crf bf := by simpa [readsOf] using h
    exact ⟨_, _, rfl, rfl, matchIntoField_agreeOn rfl (fun _ => hbf) _ _⟩

end

/-- Settles O35: off the top of the address space both runs complete, and completing changes no location. -/
theorem outcomeDependsOnlyOnWhatIsRead : Obligations.OutcomeDependsOnlyOnWhatIsRead := by
  intro i s s' hp hp' h
  obtain ⟨t, hexec, _⟩ := exec_next_of_ne_topPc i hp
  obtain ⟨t', hexec', _⟩ := exec_next_of_ne_topPc i hp'
  obtain ⟨u, u', hu, hu', hagree⟩ := exec_complete_agreeOn i h
  refine ⟨t, t', hexec, hexec', fun l hl => ?_⟩
  rw [complete_next_at (hu.symm.trans hexec), complete_next_at (hu'.symm.trans hexec'), hagree l hl]

end Sys2Proof.Machine

/-! What stands apart from the families above: analyse bit by bit (00_scope.md R13), the misaligned pc (20_memory.md
R43), and the reset state (10_state.md R29). -/

namespace Sys2Proof.Machine

/-- Four bits side by side, the first at weight 3. -/
theorem fourBits_getLsbD : ∀ b3 b2 b1 b0 : Bool,
    let n : Nibble := BitVec.ofBool b3 ++ BitVec.ofBool b2 ++ BitVec.ofBool b1 ++ BitVec.ofBool b0
    n.getLsbD 3 = b3 ∧ n.getLsbD 2 = b2 ∧ n.getLsbD 1 = b1 ∧ n.getLsbD 0 = b0 := by
  decide

theorem analyse_getLsbD (v : Word) (so : Bool) :
    (analyse v so).getLsbD 3 = v.slt 0 ∧ (analyse v so).getLsbD 2 = (0 : Word).slt v ∧
    (analyse v so).getLsbD 1 = (v == 0) ∧ (analyse v so).getLsbD 0 = so :=
  fourBits_getLsbD _ _ _ _

/-- Settles O11: the first two bits are the signed `<` on words, which is `<` of the values as integers. -/
theorem analyseComparesWithZero : Obligations.AnalyseComparesWithZero := by
  intro v so
  obtain ⟨hlt, hgt, heq, hso⟩ := analyse_getLsbD v so
  rw [hlt, hgt, heq]
  exact ⟨BitVec.slt_iff_toInt_lt, BitVec.slt_iff_toInt_lt, beq_iff_eq, hso⟩

/-- Settles O41: `step` tests the alignment of pc before it fetches. -/
theorem misalignedPcIsRefused : Obligations.MisalignedPcIsRefused :=
  fun _ h => if_pos h

theorem resetEnc_admissible : Config.resetEnc.Admissible := by decide

/-- Settles O44: ENTRY is 0, the program and BASE_ISA are empty, and ENC_EX gives its six triples apart. -/
theorem resetHasTheInvariant : Obligations.ResetHasTheInvariant where
  aligned := rfl
  memory := reset_memory_wf
  enc := resetEnc_admissible
  base := baseDisjoint_empty Config.resetEnc

end Sys2Proof.Machine
